-- ==== Sys2Proof/Word.lean ====
section
/-! DEFINITION. The word types of B32T: a byte, a length, a symbol value (00_scope.md R5, R6). No value is signed. -/

namespace Sys2Proof

/-- A `u8` (R5). -/
abbrev Byte := BitVec 8

/-- A `u16`, the width `LENW` of `IN_LEN` and `OUT_LEN` (R4). -/
abbrev Length := BitVec 16

/-- A Base32 symbol value, a `u5` in 0 to 31 (R6). -/
abbrev Sym := BitVec 5

end Sys2Proof
end

