-- ==== Sys2Proof/Syntax.lean ====
section
/-! DEFINITION. The commands of B32T: one constructor per row of spec/opcode_table.json (30_encoding.md R40). -/

namespace Sys2Proof

/-- The alphabet selector `A` (30_encoding.md R42): `A = 0` standard, `A = 1` extended-hex. -/
inductive Alphabet where
  | std
  | hex
  deriving DecidableEq, Repr

/-- The digest selector `DSEL` (30_encoding.md R40, 10_state.md R17). `reserved` is the value 3: well formed, and the
command fails with `UnsupportedDigest` (R45 (c)). -/
inductive DigestSel where
  | sha1
  | sha256
  | sha512
  | reserved
  deriving DecidableEq, Repr

/-- A command. -/
inductive Instr where
  /-- `B32ENC`, Base32 encode (40_base32_encode.md R55). -/
  | b32enc (alphabet : Alphabet)
  /-- `B32DEC`, Base32 decode (41_base32_decode.md R66). -/
  | b32dec (alphabet : Alphabet)
  /-- `HOTPTRUNC`, HOTP truncation (42_hotp_truncate.md R76). `digits` is the field `DIGITS`, an unsigned number (R44). -/
  | hotptrunc (dsel : DigestSel) (digits : Nat)
  deriving DecidableEq, Repr

end Sys2Proof
end

