-- ==== Sys2Proof/WellFormed.lean ====
section
/-! DEFINITION. Which commands have an encoding: every field's value fits its bits (30_encoding.md R40). A digit count
outside 1 to 9 and the reserved digest selector are well formed: they are encodable, and the command fails (R45). -/

namespace Sys2Proof

/-- `DIGITS` is "an unsigned 4-bit number 0 to 15" (R40); the other fields' types hold exactly their values. -/
def Instr.wf : Instr → Bool
  | .b32enc _ => true
  | .b32dec _ => true
  | .hotptrunc _ digits => decide (digits < 16)

end Sys2Proof
end

