-- ==== Sys2Proof/Decode.lean ====
section
/-! DEFINITION. Decoding a command byte (30_encoding.md R40 to R47), the encoder, and the opcode table's masks. -/

namespace Sys2Proof

/-- Why a byte is no command: both are `IllegalCommand` (R45 (a), (b)). -/
inductive DecodeError where
  /-- `UNIT = 3`, bytes 0xC0 to 0xFF (R45 (a)). -/
  | unitReserved
  /-- `UNIT` 0 or 1 with `ZERO != 0`, bytes 0x02 to 0x3F and 0x42 to 0x7F (R45 (b)). -/
  | zeroFieldNotZero
  deriving DecidableEq, Repr

/-- `UNIT = c[7:6]` (R41). -/
def unitField (c : Byte) : BitVec 2 := c.extractLsb' 6 2

/-- `ZERO = c[5:1]` (R40). -/
def zeroField (c : Byte) : BitVec 5 := c.extractLsb' 1 5

/-- `A = c[0]` (R42). -/
def alphabetField (c : Byte) : BitVec 1 := c.extractLsb' 0 1

/-- `DSEL = c[5:4]` (R44). -/
def dselField (c : Byte) : BitVec 2 := c.extractLsb' 4 2

/-- `DIGITS = c[3:0]` (R44). -/
def digitsField (c : Byte) : BitVec 4 := c.extractLsb' 0 4

/-- "`A = 0` selects `ALPHA_STD` ... and `A = 1` selects `ALPHA_HEX`" (R42). -/
def alphabetOf (a : BitVec 1) : Alphabet := if a = 0#1 then .std else .hex

/-- `DSEL`: 0 = SHA-1, 1 = SHA-256, 2 = SHA-512, 3 = reserved (R40). -/
def dselOf (d : BitVec 2) : DigestSel :=
  if d = 0#2 then .sha1 else if d = 1#2 then .sha256 else if d = 2#2 then .sha512 else .reserved

/-- `Decode(c)` (R47), total on all 256 values. -/
def decode (c : Byte) : Except DecodeError Instr :=
  if unitField c = 0#2 then
    if zeroField c = 0#5 then .ok (.b32enc (alphabetOf (alphabetField c))) else .error .zeroFieldNotZero
  else if unitField c = 1#2 then
    if zeroField c = 0#5 then .ok (.b32dec (alphabetOf (alphabetField c))) else .error .zeroFieldNotZero
  else if unitField c = 2#2 then
    .ok (.hotptrunc (dselOf (dselField c)) (digitsField c).toNat)
  else .error .unitReserved

/-- The bit `A` of an alphabet (R42). -/
def Alphabet.bit : Alphabet → BitVec 1
  | .std => 0#1
  | .hex => 1#1

/-- The field `DSEL` of a digest selector (R40). -/
def DigestSel.bits : DigestSel → BitVec 2
  | .sha1 => 0#2
  | .sha256 => 1#2
  | .sha512 => 2#2
  | .reserved => 3#2

/-- The byte of a well-formed command, from the pattern strings `0000000a`, `0100000a`, `10ssdddd` of R40. -/
def encode : Instr → Byte
  | .b32enc a => 0#2 ++ 0#5 ++ a.bit
  | .b32dec a => 1#2 ++ 0#5 ++ a.bit
  | .hotptrunc d digits => 2#2 ++ d.bits ++ BitVec.ofNat 4 digits

/-- The suffix of an alphabet (30_encoding.md R46). -/
def Alphabet.suffix : Alphabet → String
  | .std => ".STD"
  | .hex => ".HEX"

/-- The suffix of a digest selector (R46); the reserved one has no spelling. -/
def DigestSel.suffix : DigestSel → Option String
  | .sha1 => some ".SHA1"
  | .sha256 => some ".SHA256"
  | .sha512 => some ".SHA512"
  | .reserved => none

/-- The assembler spelling `MNEMONIC.SUFFIX [digits]` of a command, if R46 gives it one. -/
def spelling : Instr → Option String
  | .b32enc a => some ("B32ENC" ++ a.suffix)
  | .b32dec a => some ("B32DEC" ++ a.suffix)
  | .hotptrunc d digits => d.suffix.map fun x => "HOTPTRUNC" ++ x ++ " " ++ toString digits

/-- One row of the opcode table: a byte `c` selects it when `c & mask = match` (R47). -/
structure OpcodeRow where
  pattern : Byte
  mask : Byte
  deriving DecidableEq, Repr

/-- Whether a byte selects a row (R47). -/
def OpcodeRow.selects (row : OpcodeRow) (c : Byte) : Bool := c &&& row.mask == row.pattern

/-- `B32ENC` mask 0xFE match 0x00 (R47). -/
def rowB32enc : OpcodeRow := { pattern := 0x00#8, mask := 0xFE#8 }

/-- `B32DEC` mask 0xFE match 0x40 (R47). -/
def rowB32dec : OpcodeRow := { pattern := 0x40#8, mask := 0xFE#8 }

/-- `HOTPTRUNC` mask 0xC0 match 0x80 (R47). -/
def rowHotptrunc : OpcodeRow := { pattern := 0x80#8, mask := 0xC0#8 }

/-- The row of a command. -/
def rowOf : Instr → OpcodeRow
  | .b32enc _ => rowB32enc
  | .b32dec _ => rowB32dec
  | .hotptrunc _ _ => rowHotptrunc

/-- The rows of spec/opcode_table.json, in its order. -/
def opcodeTable : List OpcodeRow := [rowB32enc, rowB32dec, rowHotptrunc]

/-- The command byte among an instruction's bits as the opcode table numbers them: there is one command length, 8 bits
(R40), so it is the low 8 of the `nbits` given (log 11). -/
def tableByte (nbits w : Nat) : Byte := BitVec.ofNat 8 (w % 2 ^ nbits)

/-- The instruction the decoder reads from an opcode-table word. -/
def decodeTableWord (nbits w : Nat) : Option Instr :=
  match decode (tableByte nbits w) with
  | .ok i => some i
  | .error _ => none

end Sys2Proof
end

