-- ==== Sys2Proof/Config.lean ====
section
/-! DEFINITION. What an implementation fixes (`BUF_MAX`) and the one free value (buffer bytes nothing has written). -/

namespace Sys2Proof

/-- The implementation parameters (00_scope.md R4). `REGMAP` is left out: no rule reads it (20_memory.md R38, log 7). -/
structure Config where
  /-- `BUF_MAX`, the capacity in bytes of `IN` and of `OUT`. -/
  bufMax : Nat
  /-- "with `BUF_MAX >= 416`" (R4). -/
  bufMax_ge : 416 ≤ bufMax
  /-- "`BUF_MAX <= 65535`" (R4). -/
  bufMax_le : bufMax ≤ 65535
  /-- "`BUF_MAX mod 8 = 0`" (R4). -/
  bufMax_mod : bufMax % 8 = 0
  deriving DecidableEq, Repr

/-- The default of R4: `BUF_MAX = 416`. -/
def Config.default : Config :=
  { bufMax := 416, bufMax_ge := by decide, bufMax_le := by decide, bufMax_mod := by decide }

/-- The two buffers of 20_memory.md R30. -/
inductive BufferId where
  | input
  | output
  deriving DecidableEq, Repr

/-- FREE VALUE (DESIGN CHOICE, log 3). What byte `index` of a buffer reads as when nothing has written it since the reset
number `epoch`: "any value", about which nothing may be assumed (70_reset_and_hazards.md R90, U1). -/
opaque Config.unwrittenByte (epoch : Nat) (buffer : BufferId) (index : Nat) : Byte

end Sys2Proof
end

