-- ==== Sys2Proof/Machine/State.lean ====
section
/-! DEFINITION. The state of B32T (10_state.md R18 to R26), the host's operations (R24), the reasons a step can stop, and
the state after reset (70_reset_and_hazards.md R90). -/

namespace Sys2Proof.Machine

/-- The bytes of one buffer that something has written since reset: index and byte, indexes strictly rising. An unlisted
index has no byte here (log 9); what the machine reads there is the free value `Config.unwrittenByte` (log 3). -/
abbrev Memory := List Host.Cell

/-- The ten host operations of 10_state.md R24. There is no operation that writes `OUT`, `OUT_LEN` or `STATUS`. -/
inductive HostOp where
  /-- `HostWriteIn(i, v)` -/
  | writeIn (i : Nat) (v : Byte)
  /-- `HostReadIn(i)` -/
  | readIn (i : Nat)
  /-- `HostSetInLen(n)` -/
  | setInLen (n : Length)
  /-- `HostReadInLen()` -/
  | readInLen
  /-- `HostCmd(c)` -/
  | cmd (c : Byte)
  /-- `HostReadCmd()` -/
  | readCmd
  /-- `HostReadOut(i)` -/
  | readOut (i : Nat)
  /-- `HostReadOutLen()` -/
  | readOutLen
  /-- `HostReadStatus()` -/
  | readStatus
  /-- `Reset()` -/
  | reset
  deriving DecidableEq, Repr

/-- What a host read returns (R24): a `u8` or a `u16`. -/
inductive Reply where
  | byte (v : Byte)
  | length (n : Length)
  deriving DecidableEq, Repr

/-- The machine. The first six fields below `cfg` are all the state the spec gives the block (R18 to R23, R26); `cfg` is the
parameter `BUF_MAX` (R4); the last three are the model's own: the host's side and the name of the free draw. -/
structure State where
  /-- `BUF_MAX` (R4). No step changes it (log 2). -/
  cfg : Config
  /-- `IN` (R18). -/
  inBuf : Memory
  /-- `IN_LEN` (R19). -/
  inLen : Length
  /-- `OUT` (R20). -/
  outBuf : Memory
  /-- `OUT_LEN` (R21). -/
  outLen : Length
  /-- `CMD` (R22). -/
  cmd : Byte
  /-- `STATUS` (R23): bit 7 `DONE`, bits 3:0 `ERR`. -/
  status : Byte
  /-- How many resets have been applied: names the draw of the bytes nothing has written (log 3, log 4). -/
  epoch : Nat
  /-- The host operations not yet issued, the next one first (R25, R35; log 1). -/
  pending : List HostOp
  /-- The value the last host operation returned (R24; log 5). -/
  reply : Option Reply
  deriving DecidableEq, Repr

/-- Why the machine stops. A command that FAILS is no fault: it ends in a next state with its code in `STATUS`
(60_exceptions.md R83). -/
inductive Fault where
  /-- Raised by `HostWriteIn`, `HostReadIn` and `HostReadOut` with an index at or beyond `BUF_MAX`: there is no such byte, "an
  index outside the range is not an operation of the interface" (10_state.md R24, U15; log 6). Safe: the spec gives it no
  effect. -/
  | noSuchIndex (i : Nat)
  deriving DecidableEq, Repr

/-- Why an instruction has no meaning. -/
inductive Refusal where
  /-- Raised by an arm of `exec` whose instruction is not modelled yet. No arm raises it: every command has its meaning. Safe. -/
  | notModelled (mnemonic : String)
  deriving DecidableEq, Repr

/-- The machine right after reset (R90): `IN_LEN`, `OUT_LEN`, `CMD`, `STATUS` are 0 and every byte of `IN` and `OUT` is
unspecified, so nothing is listed. `cfg` is the default of R4 (log 2); the last three fields are the model's own
(logs 1, 4, 5). -/
def State.reset : State :=
  { cfg := Config.default
    inBuf := []
    inLen := 0#16
    outBuf := []
    outLen := 0#16
    cmd := 0x00#8
    status := 0x00#8
    epoch := 0
    pending := []
    reply := none }

end Sys2Proof.Machine
end

