-- ==== Sys2Proof/Machine/Flags.lean ====
section
/-! DEFINITION. Error kinds and codes (60_exceptions.md R80) and the fields of `STATUS` (10_state.md R23). -/

namespace Sys2Proof.Machine

/-- The error kinds a command can end with (R80). -/
inductive ErrKind where
  | invalidEncoding
  | invalidDigitCount
  | unsupportedDigest
  | illegalCommand
  | lengthError
  deriving DecidableEq, Repr

/-- The codes of R80. 0 is "the command succeeded"; 6 to 15 are never written. -/
def ErrKind.code : ErrKind → BitVec 4
  | .invalidEncoding => 1#4
  | .invalidDigitCount => 2#4
  | .unsupportedDigest => 3#4
  | .illegalCommand => 4#4
  | .lengthError => 5#4

/-- `STATUS` after a command that succeeds: 0x80 (R23). -/
def statusSuccess : Byte := 0x80#8

/-- `STATUS` after a command that fails with kind `k`: `0x80 | code(k)` (R23, R83). -/
def statusFailure (k : ErrKind) : Byte := 0x80#8 ||| k.code.setWidth 8

/-- `STATUS.DONE`, bit 7 (R23): at least one command has ended since reset. -/
def State.done (s : State) : BitVec 1 := s.status.extractLsb' 7 1

/-- `STATUS.ERR`, bits 3:0 (R23): the verdict of the last command that ended. -/
def State.err (s : State) : BitVec 4 := s.status.extractLsb' 0 4

/-- The reserved bits 6:4 of `STATUS`, which read as 0 (R23). -/
def State.statusReserved (s : State) : BitVec 3 := s.status.extractLsb' 4 3

end Sys2Proof.Machine
end

