-- ==== Sys2Proof/Machine/Ops.lean ====
section
/-! DEFINITION. The named operations over the buffers and registers (00_scope.md R7), and the two ways a command ends:
`succeed` and `fail` (30_encoding.md R43). -/

namespace Sys2Proof.Machine

/-- The byte listed at an index, if one is. -/
def Memory.get : Memory → Nat → Option Byte
  | [], _ => none
  | (i, v) :: rest, a => if a = i then some v else Memory.get rest a

/-- Lists `v` at index `a`, keeping the indexes rising. An unlisted index has no byte, so no write removes an entry
(log 9). -/
def Memory.set : Memory → Nat → Byte → Memory
  | [], a, v => [(a, v)]
  | (i, w) :: rest, a, v =>
    if a < i then (a, v) :: (i, w) :: rest
    else if a = i then (a, v) :: rest
    else (i, w) :: Memory.set rest a v

/-- Writes a run of bytes from index `a` up, one byte at a time (20_memory.md R33). -/
def Memory.setBytes : Memory → Nat → List Byte → Memory
  | m, _, [] => m
  | m, a, v :: vs => Memory.setBytes (Memory.set m a v) (a + 1) vs

/-- The canonical form: indexes strictly rising. -/
abbrev Memory.wf (m : Memory) : Prop := m.Pairwise (fun x y => x.1 < y.1)

/-- Every listed index exists: it is below `BUF_MAX` (R18, R20). -/
abbrev Memory.within (m : Memory) (bound : Nat) : Prop := ∀ cell ∈ m, cell.1 < bound

/-- `IN[i]` (00_scope.md R7). A byte nothing has written since reset holds some value, and a command computes on it as on
any other (D27, U1): a free value (log 3). -/
def State.readIn (s : State) (i : Nat) : Byte :=
  (s.inBuf.get i).getD (Config.unwrittenByte s.epoch .input i)

/-- `OUT[i]` (00_scope.md R7), the same. -/
def State.readOut (s : State) (i : Nat) : Byte :=
  (s.outBuf.get i).getD (Config.unwrittenByte s.epoch .output i)

/-- `IN[0..IN_LEN]`, the only bytes of `IN` a command reads (10_state.md R18). -/
def State.input (s : State) : List Byte := (List.range s.inLen.toNat).map s.readIn

/-- `OUT[0..OUT_LEN]`, the result a host may read (70_reset_and_hazards.md R93 (c)). -/
def State.output (s : State) : List Byte := (List.range s.outLen.toNat).map s.readOut

/-- `IN[i] <- v` (R7). -/
def State.writeIn (s : State) (i : Nat) (v : Byte) : State := { s with inBuf := s.inBuf.set i v }

/-- `IN_LEN <- n`. -/
def State.setInLen (s : State) (n : Length) : State := { s with inLen := n }

/-- `CMD <- c`. -/
def State.setCmd (s : State) (c : Byte) : State := { s with cmd := c }

/-- A host read returns `r`: no other state changes (20_memory.md R34). -/
def State.answer (s : State) (r : Reply) : State := { s with reply := some r }

/-- The operation now issued leaves the pending list; nothing has been returned for it yet (log 1, log 5). -/
def State.issue (s : State) (rest : List HostOp) : State := { s with pending := rest, reply := none }

/-- `succeed(bytes)` (R43): `OUT[0..len(bytes)] <- bytes; OUT_LEN <- len(bytes); STATUS <- 0x80`. Bytes of `OUT` at and
beyond the new length keep their old value (R20). -/
def State.succeed (s : State) (bytes : List Byte) : State :=
  { s with
    outBuf := s.outBuf.setBytes 0 bytes
    outLen := BitVec.ofNat 16 bytes.length
    status := statusSuccess }

/-- `fail(kind)` (R43, R83), what stands in for taking an exception: `STATUS <- 0x80 | code(kind)` and nothing else. There is
no return from it and nothing to restore (R85). -/
def State.fail (s : State) (k : ErrKind) : State := { s with status := statusFailure k }

/-- The effect of `Reset()` on the block (R90): `IN_LEN`, `OUT_LEN`, `CMD`, `STATUS` become 0 and every byte of `IN` and
`OUT` unspecified: nothing is listed, and the draw of the free bytes is a new one (log 3). -/
def State.resetBlock (s : State) : State :=
  { s with
    inBuf := []
    inLen := 0#16
    outBuf := []
    outLen := 0#16
    cmd := 0x00#8
    status := 0x00#8
    epoch := s.epoch + 1 }

end Sys2Proof.Machine
end

