-- ==== Sys2Proof/Machine/Operands.lean ====
section
/-! DEFINITION. The constant tables of 10_state.md R10 to R17 and the inverse alphabet lookup R27. -/

namespace Sys2Proof.Machine

/-- `ALPHA_STD` (R10): `A` to `Z`, then `2` to `7`, as ASCII codes. -/
def alphaStd : List Byte :=
  [0x41#8, 0x42#8, 0x43#8, 0x44#8, 0x45#8, 0x46#8, 0x47#8, 0x48#8,
   0x49#8, 0x4A#8, 0x4B#8, 0x4C#8, 0x4D#8, 0x4E#8, 0x4F#8, 0x50#8] ++
  [0x51#8, 0x52#8, 0x53#8, 0x54#8, 0x55#8, 0x56#8, 0x57#8, 0x58#8,
   0x59#8, 0x5A#8, 0x32#8, 0x33#8, 0x34#8, 0x35#8, 0x36#8, 0x37#8]

/-- `ALPHA_HEX` (R11): `0` to `9`, then `A` to `V`, as ASCII codes. -/
def alphaHex : List Byte :=
  [0x30#8, 0x31#8, 0x32#8, 0x33#8, 0x34#8, 0x35#8, 0x36#8, 0x37#8,
   0x38#8, 0x39#8, 0x41#8, 0x42#8, 0x43#8, 0x44#8, 0x45#8, 0x46#8] ++
  [0x47#8, 0x48#8, 0x49#8, 0x4A#8, 0x4B#8, 0x4C#8, 0x4D#8, 0x4E#8,
   0x4F#8, 0x50#8, 0x51#8, 0x52#8, 0x53#8, 0x54#8, 0x55#8, 0x56#8]

/-- `PAD`, the byte `=` (R12). -/
def pad : Byte := 0x3D#8

/-- `ALPHA(a)[v]` (R11, 30_encoding.md R42). -/
def alpha (a : Alphabet) (v : Sym) : Byte :=
  match a with
  | .std => alphaStd.getD v.toNat pad
  | .hex => alphaHex.getD v.toNat pad

/-- `SYMCOUNT[r]` (R13), "taking `SYMCOUNT[0] = 0`" (40_base32_encode.md R53); no block has more than 5 bytes. -/
def symCount : Nat → Nat
  | 1 => 2
  | 2 => 4
  | 3 => 5
  | 4 => 7
  | 5 => 8
  | _ => 0

/-- `PADCOUNT[n mod 5]` (R14). -/
def padCount : Nat → Nat
  | 1 => 6
  | 2 => 4
  | 3 => 3
  | 4 => 1
  | _ => 0

/-- `DECBYTES[q]` (R15), `none` for an invalid remainder. -/
def decBytes : Nat → Option Nat
  | 0 => some 0
  | 2 => some 1
  | 4 => some 2
  | 5 => some 3
  | 7 => some 4
  | _ => none

/-- `POW10[d] = 10^d` (R16). -/
def pow10 (d : Nat) : Nat := 10 ^ d

/-- `DLEN[s]` (R17); the reserved selector has no entry. -/
def dlen : DigestSel → Option Nat
  | .sha1 => some 20
  | .sha256 => some 32
  | .sha512 => some 64
  | .reserved => none

/-- `SymVal(a, c)` in the closed form of R27. -/
def symVal (a : Alphabet) (c : Byte) : Option Sym :=
  match a with
  | .std =>
    if 0x41 ≤ c.toNat ∧ c.toNat ≤ 0x5A then some (BitVec.ofNat 5 (c.toNat - 0x41))
    else if 0x32 ≤ c.toNat ∧ c.toNat ≤ 0x37 then some (BitVec.ofNat 5 (c.toNat - 0x32 + 26))
    else none
  | .hex =>
    if 0x30 ≤ c.toNat ∧ c.toNat ≤ 0x39 then some (BitVec.ofNat 5 (c.toNat - 0x30))
    else if 0x41 ≤ c.toNat ∧ c.toNat ≤ 0x56 then some (BitVec.ofNat 5 (c.toNat - 0x41 + 10))
    else none

end Sys2Proof.Machine
end

