-- ==== Sys2Proof/Machine/Base32Decode.lean ====
section
/-! DEFINITION. The Base32 decoder and the meaning of `B32DEC` (41_base32_decode.md R60 to R66). -/

namespace Sys2Proof.Machine

/-- The loop of `StripPad` from a count `c` down (R60). -/
def stripPadFrom (t : List Byte) : Nat → Nat
  | 0 => 0
  | c + 1 => if t[c]? = some pad then stripPadFrom t c else c + 1

/-- `StripPad(t)`, the true symbol count (R60). The pad count is not checked (D16). -/
def stripPad (t : List Byte) : Nat := stripPadFrom t t.length

/-- The symbol lookups of R62: every value, or `none` if one lookup gives none. -/
def symVals (a : Alphabet) : List Byte → Option (List Sym)
  | [] => some []
  | c :: cs =>
    match symVal a c, symVals a cs with
    | some v, some vs => some (v :: vs)
    | _, _ => none

/-- The 40-bit integer of up to eight symbols, left-aligned, missing symbols zero (R63). -/
def groupWord (v : List Sym) : BitVec 40 :=
  v.getD 0 0#5 ++ v.getD 1 0#5 ++ v.getD 2 0#5 ++ v.getD 3 0#5 ++
  v.getD 4 0#5 ++ v.getD 5 0#5 ++ v.getD 6 0#5 ++ v.getD 7 0#5

/-- `nb`: 5 for a full group of 8 symbols, `DECBYTES[m]` for a partial one (R63). -/
def groupBytes (m : Nat) : Nat := if m = 8 then 5 else (decBytes m).getD 0

/-- `DecGroup(v)` (R63): the first `nb` bytes `B[i] = V[39-8i : 32-8i]`. The bits below the last one are dropped without a
check (D18). -/
def decGroup (v : List Sym) : List Byte :=
  (List.range (groupBytes v.length)).map fun i => (groupWord v).extractLsb' (32 - 8 * i) 8

/-- The groups of R64: full groups of eight symbols, then the final partial group, if there is one. -/
def decGroups : List Sym → List Byte
  | v0 :: v1 :: v2 :: v3 :: v4 :: v5 :: v6 :: v7 :: rest =>
    decGroup [v0, v1, v2, v3, v4, v5, v6, v7] ++ decGroups rest
  | [] => []
  | v => decGroup v

/-- `Dec(a, t)` (R64): the remainder check (R61), the symbol lookups (R62), the groups (R63). -/
def dec (a : Alphabet) (t : List Byte) : Except ErrKind (List Byte) :=
  if decBytes (stripPad t % 8) = none then .error .invalidEncoding
  else
    match symVals a (t.take (stripPad t)) with
    | none => .error .invalidEncoding
    | some v => .ok (decGroups v)

/-- `B32DEC` (R66). -/
def execB32dec (a : Alphabet) (s : State) : Host.Outcome State Fault Refusal :=
  if s.cfg.bufMax < s.inLen.toNat then .next (s.fail .lengthError)
  else
    match dec a s.input with
    | .error k => .next (s.fail k)
    | .ok bytes => .next (s.succeed bytes)

end Sys2Proof.Machine
end

