-- ==== Sys2Proof/Machine/Base32Encode.lean ====
section
/-! DEFINITION. The Base32 encoder and the meaning of `B32ENC` (40_base32_encode.md R50 to R55). -/

namespace Sys2Proof.Machine

/-- The 40-bit integer `V` of a block of 1 to 5 bytes, big-endian, missing bytes zero (R50). -/
def blockWord (blk : List Byte) : BitVec 40 :=
  blk.getD 0 0#8 ++ blk.getD 1 0#8 ++ blk.getD 2 0#8 ++ blk.getD 3 0#8 ++ blk.getD 4 0#8

/-- `s[j] = V[39-5j : 35-5j]` for `j` in 0 to 7 (R50). -/
def encSym (blk : List Byte) (j : Nat) : Sym := (blockWord blk).extractLsb' (35 - 5 * j) 5

/-- `EncBlock(a, blk)` (R51): eight characters, `SYMCOUNT[r]` symbols and then `PAD`. -/
def encBlock (a : Alphabet) (blk : List Byte) : List Byte :=
  (List.range 8).map fun j => if j < symCount blk.length then alpha a (encSym blk j) else pad

/-- `Enc(a, b)` (R52): full blocks of five bytes, then the final partial block, if there is one. -/
def enc (a : Alphabet) : List Byte → List Byte
  | b0 :: b1 :: b2 :: b3 :: b4 :: rest => encBlock a [b0, b1, b2, b3, b4] ++ enc a rest
  | [] => []
  | blk => encBlock a blk

/-- The output length `L = 8 * ((n + 4) div 5)`, a natural number that does not wrap (R55). -/
def encodedLength (n : Nat) : Nat := 8 * ((n + 4) / 5)

/-- `B32ENC` (R55). -/
def execB32enc (a : Alphabet) (s : State) : Host.Outcome State Fault Refusal :=
  if s.cfg.bufMax < encodedLength s.inLen.toNat then .next (s.fail .lengthError)
  else .next (s.succeed (enc a s.input))

end Sys2Proof.Machine
end

