-- ==== Sys2Proof/Machine/HotpTruncate.lean ====
section
/-! DEFINITION. The HOTP truncator and the meaning of `HOTPTRUNC` (42_hotp_truncate.md R70 to R76). -/

namespace Sys2Proof.Machine

/-- `TruncOffset(d)` (R70): the low four bits of the LAST byte of the digest. -/
def truncOffset (d : List Byte) : BitVec 4 := (d.getD (d.length - 1) 0#8).extractLsb' 0 4

/-- `TruncSelect(d)` (R71): four bytes from the offset, big-endian, bit 7 of the first dropped. -/
def truncSelect (d : List Byte) : BitVec 31 :=
  (d.getD (truncOffset d).toNat 0#8).extractLsb' 0 7 ++ d.getD ((truncOffset d).toNat + 1) 0#8 ++
  d.getD ((truncOffset d).toNat + 2) 0#8 ++ d.getD ((truncOffset d).toNat + 3) 0#8

/-- `TruncMod(P, digits)` (R72): `P mod POW10[digits]`. -/
def truncMod (p : BitVec 31) (digits : Nat) : Nat := p.toNat % pow10 digits

/-- `TruncFormat(value, digits)` (R73): exactly `digits` ASCII digits, most significant first, leading zeros kept. -/
def truncFormat (value digits : Nat) : List Byte :=
  (List.range digits).map fun i => BitVec.ofNat 8 (0x30 + value / pow10 (digits - 1 - i) % 10)

/-- `Trunc(d, digits)` (R74). -/
def trunc (d : List Byte) (digits : Nat) : List Byte :=
  truncFormat (truncMod (truncSelect d) digits) digits

/-- `HOTPTRUNC` (R76), after the checks of R75 in their order. A term with more than 15 digits, which no byte
encodes, fails the second check (log 8). `DIGITS = 9` is legal (90_conflicts.md C1). -/
def execHotptrunc (dsel : DigestSel) (digits : Nat) (s : State) : Host.Outcome State Fault Refusal :=
  match dlen dsel with
  | none => .next (s.fail .unsupportedDigest)
  | some n =>
    if digits < 1 ∨ 9 < digits then .next (s.fail .invalidDigitCount)
    else if s.inLen.toNat ≠ n then .next (s.fail .lengthError)
    else .next (s.succeed (trunc s.input digits))

end Sys2Proof.Machine
end

