-- ==== Sys2Proof/Machine/Dispatch.lean ====
section
/-! DEFINITION. One arm per command (30_encoding.md R43). -/

namespace Sys2Proof.Machine

-- R43: "run the selected command's rule (R55, R66 or R76)"; HostCmd has written CMD before (log 8)
def exec (i : Instr) (s : State) : Host.Outcome State Fault Refusal :=
  match i with
  | .b32enc a => Sys2Proof.Machine.execB32enc a s
  | .b32dec a => Sys2Proof.Machine.execB32dec a s
  | .hotptrunc dsel digits => Sys2Proof.Machine.execHotptrunc dsel digits s

end Sys2Proof.Machine
end

