-- ==== Sys2Proof/Machine/HostPort.lean ====
section
/-! DEFINITION. The ten host operations (10_state.md R24), among them `HostCmd` (30_encoding.md R43) and `Reset`
(70_reset_and_hazards.md R90). Each is one complete step (20_memory.md R35). -/

namespace Sys2Proof.Machine

/-- `HostWriteIn(i, v)`: `IN[i] <- v`, for `i < BUF_MAX`. -/
def hostWriteIn (i : Nat) (v : Byte) (s : State) : Host.Outcome State Fault Refusal :=
  if i < s.cfg.bufMax then .next (s.writeIn i v) else .fault (.noSuchIndex i)

/-- `HostReadIn(i)`: returns `IN[i]`, for `i < BUF_MAX`. -/
def hostReadIn (i : Nat) (s : State) : Host.Outcome State Fault Refusal :=
  if i < s.cfg.bufMax then .next (s.answer (.byte (s.readIn i))) else .fault (.noSuchIndex i)

/-- `HostSetInLen(n)`: `IN_LEN <- n`, any `u16` (R19). -/
def hostSetInLen (n : Length) (s : State) : Host.Outcome State Fault Refusal := .next (s.setInLen n)

/-- `HostReadInLen()`. -/
def hostReadInLen (s : State) : Host.Outcome State Fault Refusal := .next (s.answer (.length s.inLen))

/-- `HostCmd(c)` (30_encoding.md R43): `CMD <- c`, then the command runs to its end; a reserved byte fails with
`IllegalCommand`. -/
def hostCmd (c : Byte) (s : State) : Host.Outcome State Fault Refusal :=
  match decode c with
  | .error _ => .next ((s.setCmd c).fail .illegalCommand)
  | .ok i => exec i (s.setCmd c)

/-- `HostReadCmd()`: returns the byte last written and starts nothing (R22). -/
def hostReadCmd (s : State) : Host.Outcome State Fault Refusal := .next (s.answer (.byte s.cmd))

/-- `HostReadOut(i)`: returns `OUT[i]`, for `i < BUF_MAX`. -/
def hostReadOut (i : Nat) (s : State) : Host.Outcome State Fault Refusal :=
  if i < s.cfg.bufMax then .next (s.answer (.byte (s.readOut i))) else .fault (.noSuchIndex i)

/-- `HostReadOutLen()`. -/
def hostReadOutLen (s : State) : Host.Outcome State Fault Refusal := .next (s.answer (.length s.outLen))

/-- `HostReadStatus()`: "reading does not clear `DONE` or `ERR`" (R24). -/
def hostReadStatus (s : State) : Host.Outcome State Fault Refusal := .next (s.answer (.byte s.status))

/-- `Reset()` (70_reset_and_hazards.md R90). It starts no command; the host's further operations still follow it. -/
def hostReset (s : State) : Host.Outcome State Fault Refusal := .next s.resetBlock

/-- One host operation. -/
def perform (op : HostOp) (s : State) : Host.Outcome State Fault Refusal :=
  match op with
  | .writeIn i v => hostWriteIn i v s
  | .readIn i => hostReadIn i s
  | .setInLen n => hostSetInLen n s
  | .readInLen => hostReadInLen s
  | .cmd c => hostCmd c s
  | .readCmd => hostReadCmd s
  | .readOut i => hostReadOut i s
  | .readOutLen => hostReadOutLen s
  | .readStatus => hostReadStatus s
  | .reset => hostReset s

/-- The next host operation is issued and takes effect completely (20_memory.md R35). With none pending nothing happens:
"the block has no halt state" (70_reset_and_hazards.md R92; log 1). -/
def issueNext (s : State) : Host.Outcome State Fault Refusal :=
  match s.pending with
  | [] => .next s
  | op :: rest => perform op (s.issue rest)

/-- Puts a host operation before all pending ones. -/
def State.enqueueFirst (s : State) (op : HostOp) : State := { s with pending := op :: s.pending }

end Sys2Proof.Machine
end

