-- ==== Sys2Proof/Machine/Step.lean ====
section
/-! DEFINITION. One step of the machine: the next host operation (10_state.md R25, 20_memory.md R35). -/

namespace Sys2Proof.Machine

/-- One step: the host issues its next operation. -/
def step : State → Host.Outcome State Fault Refusal := fun s => issueNext s

/-- `s` with the command byte of an opcode-table word as the host's next operation: nothing is fetched from a memory (R25),
the command byte is what `HostCmd` writes (log 1). -/
def State.withFetchWord (s : State) (nbits w : Nat) : State := s.enqueueFirst (.cmd (tableByte nbits w))

end Sys2Proof.Machine
end

