-- ==== Sys2Proof/Safety.lean ====
section
/-! DEFINITION. What a good state is, what a command leaves alone, and the arithmetic of the spec in which claims say what a
command computes. Nothing here is part of the machine. -/

namespace Sys2Proof.Machine

/-- The states the block can be in: the buffers are in canonical form and hold no byte beyond `BUF_MAX`, `OUT_LEN` is at most
`BUF_MAX` (10_state.md R21), every byte of `OUT[0..OUT_LEN]` was written by a command, `STATUS` is 0x00 or a verdict (R23), and
before the first command ends `CMD`, `OUT_LEN` and `OUT` are as reset left them. -/
structure State.Inv (s : State) : Prop where
  inCanonical : s.inBuf.wf
  outCanonical : s.outBuf.wf
  inWithin : s.inBuf.within s.cfg.bufMax
  outWithin : s.outBuf.within s.cfg.bufMax
  outLenFits : s.outLen.toNat ≤ s.cfg.bufMax
  outWritten : ∀ i, i < s.outLen.toNat → (s.outBuf.get i).isSome = true
  statusLegal : s.status = 0x00#8 ∨ s.status = statusSuccess ∨ ∃ k, s.status = statusFailure k
  fresh : s.status = 0x00#8 → s.cmd = 0x00#8 ∧ s.outLen = 0#16 ∧ s.outBuf = []

/-- An operation that the interface has (10_state.md R24): its index, if it has one, is below `BUF_MAX`. A run is safe when
every operation issued is one. -/
def State.accepts (s : State) : HostOp → Bool
  | .writeIn i _ => decide (i < s.cfg.bufMax)
  | .readIn i => decide (i < s.cfg.bufMax)
  | .readOut i => decide (i < s.cfg.bufMax)
  | .setInLen _ => true
  | .readInLen => true
  | .cmd _ => true
  | .readCmd => true
  | .readOutLen => true
  | .readStatus => true
  | .reset => true

/-- What no command changes (20_memory.md R34): everything but `OUT`, `OUT_LEN` and `STATUS`, seen through every register and
every byte of `IN`. (`CMD` is written by `HostCmd` before the command runs.) -/
structure CommandFrame (s t : State) : Prop where
  sameCfg : t.cfg = s.cfg
  sameInBuf : t.inBuf = s.inBuf
  sameInLen : t.inLen = s.inLen
  sameCmd : t.cmd = s.cmd
  sameEpoch : t.epoch = s.epoch
  samePending : t.pending = s.pending
  sameReply : t.reply = s.reply
  sameInBytes : ∀ i, t.readIn i = s.readIn i

/-- What no host read changes (20_memory.md R34): every register and every byte of both buffers. -/
structure BlockUnchanged (s t : State) : Prop where
  sameCfg : t.cfg = s.cfg
  sameInBuf : t.inBuf = s.inBuf
  sameInLen : t.inLen = s.inLen
  sameOutBuf : t.outBuf = s.outBuf
  sameOutLen : t.outLen = s.outLen
  sameCmd : t.cmd = s.cmd
  sameStatus : t.status = s.status
  sameEpoch : t.epoch = s.epoch
  sameInBytes : ∀ i, t.readIn i = s.readIn i
  sameOutBytes : ∀ i, t.readOut i = s.readOut i

/-- The input byte at an index as a number, "with the missing bytes taken as zero" (40_base32_encode.md R50). -/
def inNumber (s : State) (i : Nat) : Nat := if i < s.inLen.toNat then (s.readIn i).toNat else 0

/-- The 40-bit integer of input block `k`: `b0·2^32 + b1·2^24 + b2·2^16 + b3·2^8 + b4` (20_memory.md R31). -/
def blockNumber (s : State) (k : Nat) : Nat :=
  inNumber s (5 * k) * 2 ^ 32 + inNumber s (5 * k + 1) * 2 ^ 24 + inNumber s (5 * k + 2) * 2 ^ 16 +
  inNumber s (5 * k + 3) * 2 ^ 8 + inNumber s (5 * k + 4)

/-- Symbol `j` of input block `k`: `V[39-5j : 35-5j]` by the division of 00_scope.md R5. -/
def blockSymbol (s : State) (k j : Nat) : Sym := BitVec.ofNat 5 (blockNumber s k / 2 ^ (35 - 5 * j) % 2 ^ 5)

/-- `c` is the true symbol count of the text in `IN` (41_base32_decode.md R60): `t[c..L]` is all pad characters, and if
`c > 0` then `t[c-1]` is none. -/
structure IsTrueCount (s : State) (c : Nat) : Prop where
  le : c ≤ s.inLen.toNat
  padded : ∀ i, c ≤ i → i < s.inLen.toNat → s.readIn i = 0x3D#8
  maximal : 0 < c → s.readIn (c - 1) ≠ 0x3D#8

/-- The value of the symbol at index `i` of a text with true count `c`, "missing symbols as zero" (R63). -/
def symbolNumber (a : Alphabet) (s : State) (c i : Nat) : Nat :=
  if i < c then ((symVal a (s.readIn i)).getD 0#5).toNat else 0

/-- The 40-bit integer of group `g`: `w[0] << 35 | w[1] << 30 | ... | w[7]` (R63), as a sum. -/
def groupNumber (a : Alphabet) (s : State) (c g : Nat) : Nat :=
  symbolNumber a s c (8 * g) * 2 ^ 35 + symbolNumber a s c (8 * g + 1) * 2 ^ 30 +
  symbolNumber a s c (8 * g + 2) * 2 ^ 25 + symbolNumber a s c (8 * g + 3) * 2 ^ 20 +
  symbolNumber a s c (8 * g + 4) * 2 ^ 15 + symbolNumber a s c (8 * g + 5) * 2 ^ 10 +
  symbolNumber a s c (8 * g + 6) * 2 ^ 5 + symbolNumber a s c (8 * g + 7)

/-- The window offset of a digest of `n` bytes in `IN` (42_hotp_truncate.md R70). -/
def digestOffset (s : State) (n : Nat) : Nat := (s.readIn (n - 1)).toNat % 16

/-- The 31-bit selection `P` of a digest of `n` bytes in `IN`, as a sum (R71, 20_memory.md R32). -/
def digestSelection (s : State) (n : Nat) : Nat :=
  (s.readIn (digestOffset s n)).toNat % 128 * 2 ^ 24 + (s.readIn (digestOffset s n + 1)).toNat * 2 ^ 16 +
  (s.readIn (digestOffset s n + 2)).toNat * 2 ^ 8 + (s.readIn (digestOffset s n + 3)).toNat

/-- The reserved command bytes (30_encoding.md R45 (a), (b)). -/
abbrev reservedByte (c : Byte) : Prop :=
  (0x02 ≤ c.toNat ∧ c.toNat ≤ 0x3F) ∨ (0x42 ≤ c.toNat ∧ c.toNat ≤ 0x7F) ∨ 0xC0 ≤ c.toNat

/-- The digest length a `HOTPTRUNC` byte with `DSEL` 0, 1 or 2 asks for (10_state.md R17). -/
def wantedLength (c : Byte) : Nat :=
  if c.toNat ≤ 0x8F then 20 else if c.toNat ≤ 0x9F then 32 else 64

/-- A text of alphabet `a` in canonical form (41_base32_decode.md R67): as many pad bytes as fill the last group of eight, and
the bits of the last symbol below the last byte zero. -/
structure Canonical (a : Alphabet) (t : List Byte) : Prop where
  padFills : t.length = stripPad t + (8 - stripPad t % 8) % 8
  droppedZero : ∀ v, stripPad t % 8 ≠ 0 → symVal a (t.getD (stripPad t - 1) 0#8) = some v →
    v.toNat % 2 ^ (5 * (stripPad t % 8) % 8) = 0

end Sys2Proof.Machine
end

