-- ==== Sys2Proof/Certificates/Slice0/Obligations.lean ====
section
/-! DEFINITION. The statements for the provers. Each docstring names the rule of spec/ it is about. -/

open Sys2Proof Sys2Proof.Machine

/- ## Encoding -/

/-- 30_encoding.md R40, R47: decoding the byte of a well-formed command gives the command back, every operand at every value. -/
def Obligations.DecodeAfterEncode : Prop :=
  ∀ i : Instr, i.wf = true → decode (encode i) = .ok i

/-- R47: a byte that decodes is the byte of the command it decodes to, and that command is well formed. -/
def Obligations.EncodeAfterDecode : Prop :=
  ∀ (c : Byte) (i : Instr), decode c = .ok i → i.wf = true ∧ encode i = c

/-- R46: the spellings and their bytes, `d` from 0 to 15. -/
def Obligations.SpellingsHaveTheirBytes : Prop :=
  decode 0x00#8 = .ok (.b32enc .std) ∧ decode 0x01#8 = .ok (.b32enc .hex) ∧
  decode 0x40#8 = .ok (.b32dec .std) ∧ decode 0x41#8 = .ok (.b32dec .hex) ∧
  (∀ d : Fin 16, decode (0x80#8 + BitVec.ofNat 8 d) = .ok (.hotptrunc .sha1 d)) ∧
  (∀ d : Fin 16, decode (0x90#8 + BitVec.ofNat 8 d) = .ok (.hotptrunc .sha256 d)) ∧
  (∀ d : Fin 16, decode (0xA0#8 + BitVec.ofNat 8 d) = .ok (.hotptrunc .sha512 d)) ∧
  spelling (.b32enc .std) = some "B32ENC.STD" ∧ spelling (.b32enc .hex) = some "B32ENC.HEX" ∧
  spelling (.b32dec .std) = some "B32DEC.STD" ∧ spelling (.b32dec .hex) = some "B32DEC.HEX" ∧
  spelling (.hotptrunc .sha1 6) = some "HOTPTRUNC.SHA1 6" ∧ spelling (.hotptrunc .sha256 8) = some "HOTPTRUNC.SHA256 8" ∧
  spelling (.hotptrunc .sha512 15) = some "HOTPTRUNC.SHA512 15"

/-- R45 (a), (b), R47: exactly the bytes 0x02 to 0x3F, 0x42 to 0x7F and 0xC0 to 0xFF are no command. -/
def Obligations.ReservedBytesDoNotDecode : Prop :=
  ∀ c : Byte, (∃ e, decode c = .error e) ↔ reservedByte c

/-- R47: the three match and mask sets are disjoint, and a byte is in none of them exactly when it does not decode. -/
def Obligations.OpcodeRowsPartitionTheCommands : Prop :=
  ∀ c : Byte,
    (rowB32enc.selects c = true ↔ ∃ a, decode c = .ok (.b32enc a)) ∧
    (rowB32dec.selects c = true ↔ ∃ a, decode c = .ok (.b32dec a)) ∧
    (rowHotptrunc.selects c = true ↔ ∃ d n, decode c = .ok (.hotptrunc d n)) ∧
    (rowB32enc.selects c && rowB32dec.selects c) = false ∧
    (rowB32enc.selects c && rowHotptrunc.selects c) = false ∧
    (rowB32dec.selects c && rowHotptrunc.selects c) = false

/-- R47, last sentence: the bytes that can succeed are 0x00, 0x01, 0x40, 0x41 and the 27 truncations with `DSEL` 0 to 2 and
`DIGITS` 1 to 9. -/
def Obligations.BytesThatCanSucceed : Prop :=
  ∀ c : Byte, (∃ s t, hostCmd c s = .next t ∧ t.status = 0x80#8) ↔
    (c = 0x00#8 ∨ c = 0x01#8 ∨ c = 0x40#8 ∨ c = 0x41#8 ∨
     (0x80 ≤ c.toNat ∧ c.toNat ≤ 0xAF ∧ 1 ≤ c.toNat % 16 ∧ c.toNat % 16 ≤ 9))

/- ## Constant tables -/

/-- 10_state.md R10, R11: the closed forms of both alphabets, and which selector value means which. -/
def Obligations.AlphabetTables : Prop :=
  alphabetOf 0#1 = .std ∧ alphabetOf 1#1 = .hex ∧
  (∀ v : Sym, v.toNat ≤ 25 → (alpha .std v).toNat = 0x41 + v.toNat) ∧
  (∀ v : Sym, 26 ≤ v.toNat → (alpha .std v).toNat = 0x32 + (v.toNat - 26)) ∧
  (∀ v : Sym, v.toNat ≤ 9 → (alpha .hex v).toNat = 0x30 + v.toNat) ∧
  (∀ v : Sym, 10 ≤ v.toNat → (alpha .hex v).toNat = 0x41 + (v.toNat - 10))

/-- R27: the lookup gives `v` exactly when `ALPHA(a)[v] = c`; with the closed forms and the bytes the rule names as `none`. -/
def Obligations.SymbolLookupInvertsTheAlphabet : Prop :=
  (∀ a c v, symVal a c = some v ↔ alpha a v = c) ∧
  (∀ c : Byte, 0x41 ≤ c.toNat ∧ c.toNat ≤ 0x5A → symVal .std c = some (BitVec.ofNat 5 (c.toNat - 0x41))) ∧
  (∀ c : Byte, 0x32 ≤ c.toNat ∧ c.toNat ≤ 0x37 → symVal .std c = some (BitVec.ofNat 5 (c.toNat - 0x32 + 26))) ∧
  (∀ c : Byte, ¬ (0x41 ≤ c.toNat ∧ c.toNat ≤ 0x5A) ∧ ¬ (0x32 ≤ c.toNat ∧ c.toNat ≤ 0x37) → symVal .std c = none) ∧
  (∀ c : Byte, 0x30 ≤ c.toNat ∧ c.toNat ≤ 0x39 → symVal .hex c = some (BitVec.ofNat 5 (c.toNat - 0x30))) ∧
  (∀ c : Byte, 0x41 ≤ c.toNat ∧ c.toNat ≤ 0x56 → symVal .hex c = some (BitVec.ofNat 5 (c.toNat - 0x41 + 10))) ∧
  (∀ c : Byte, ¬ (0x30 ≤ c.toNat ∧ c.toNat ≤ 0x39) ∧ ¬ (0x41 ≤ c.toNat ∧ c.toNat ≤ 0x56) → symVal .hex c = none) ∧
  (∀ a, symVal a 0x3D#8 = none) ∧
  (∀ a (c : Byte), 0x61 ≤ c.toNat ∧ c.toNat ≤ 0x7A → symVal a c = none) ∧
  (∀ a (c : Byte), 0x80 ≤ c.toNat → symVal a c = none) ∧
  (∀ c : Byte, 0x57 ≤ c.toNat ∧ c.toNat ≤ 0x5A → symVal .hex c = none) ∧
  (∀ c ∈ [0x30#8, 0x31#8, 0x38#8, 0x39#8], symVal .std c = none)

/-- R13, R14, R15: the partial-block tables, entry by entry, and the equations among them. -/
def Obligations.PartialBlockTables : Prop :=
  symCount 1 = 2 ∧ symCount 2 = 4 ∧ symCount 3 = 5 ∧ symCount 4 = 7 ∧ symCount 5 = 8 ∧
  (∀ r, 1 ≤ r → r ≤ 5 → symCount r = (8 * r + 4) / 5) ∧
  padCount 0 = 0 ∧ padCount 1 = 6 ∧ padCount 2 = 4 ∧ padCount 3 = 3 ∧ padCount 4 = 1 ∧
  (∀ r, 1 ≤ r → r ≤ 4 → padCount r = 8 - symCount r) ∧
  decBytes 0 = some 0 ∧ decBytes 1 = none ∧ decBytes 2 = some 1 ∧ decBytes 3 = none ∧ decBytes 4 = some 2 ∧
  decBytes 5 = some 3 ∧ decBytes 6 = none ∧ decBytes 7 = some 4 ∧
  (∀ q ∈ [2, 4, 5, 7], decBytes q = some (5 * q / 8)) ∧
  (∀ r, 1 ≤ r → r ≤ 4 → decBytes (symCount r) = some r)

/-- R17: the digest lengths, `DSEL` 3 having none. -/
def Obligations.DigestLengthTable : Prop :=
  dlen (dselOf 0#2) = some 20 ∧ dlen (dselOf 1#2) = some 32 ∧ dlen (dselOf 2#2) = some 64 ∧ dlen (dselOf 3#2) = none

/- ## Reset -/

/-- 70_reset_and_hazards.md R90, 10_state.md section 4, on the state the model starts from: the four registers are 0, so
`DONE = 0` and `ERR = 0`. The default of R4 for `BUF_MAX` is the model's choice (log 2). -/
def Obligations.ResetStateRegisters : Prop :=
  State.reset.inLen = 0#16 ∧ State.reset.outLen = 0#16 ∧ State.reset.cmd = 0x00#8 ∧ State.reset.status = 0x00#8 ∧
  State.reset.done = 0#1 ∧ State.reset.err = 0#4 ∧ State.reset.cfg.bufMax = 416

/-- R90: the `Reset()` operation, from every state. Every byte of `IN` and `OUT` is then a free value of a new draw: that form of
"unspecified" is the model's own (logs 3, 4), and nothing is said of the value. It starts no command: the operations still
pending are as before. -/
def Obligations.ResetOperationResetsTheBlock : Prop :=
  ∀ s rest, s.pending = .reset :: rest →
    ∃ t, step s = .next t ∧ t.inLen = 0#16 ∧ t.outLen = 0#16 ∧ t.cmd = 0x00#8 ∧ t.status = 0x00#8 ∧
      t.done = 0#1 ∧ t.err = 0#4 ∧
      (∀ i, t.readIn i = Config.unwrittenByte (s.epoch + 1) .input i) ∧
      (∀ i, t.readOut i = Config.unwrittenByte (s.epoch + 1) .output i) ∧
      t.cfg = s.cfg ∧ t.pending = rest ∧ t.reply = none

/-- R91: with `IN_LEN = 0`, as straight after reset, `B32ENC` and `B32DEC` succeed with `OUT_LEN = 0` and write no byte of `OUT`. -/
def Obligations.EmptyInputSucceeds : Prop :=
  ∀ (a : Alphabet) (s : State), s.inLen = 0#16 →
    exec (.b32enc a) s = .next { s with outLen := 0#16, status := 0x80#8 } ∧
    exec (.b32dec a) s = .next { s with outLen := 0#16, status := 0x80#8 }

/- ## The host's operations -/

/-- 10_state.md R25, 30_encoding.md R43: when the host's next operation is `HostCmd(c)` and `c` decodes to `i`, the step is `exec`
of `i` with `CMD` already written, the operation taken from the pending list, and no value returned yet. -/
def Obligations.StepRunsTheDecodedCommand : Prop :=
  ∀ (s : State) (c : Byte) (rest : List HostOp) (i : Instr),
    s.pending = .cmd c :: rest → decode c = .ok i →
    step s = exec i { s with pending := rest, reply := none, cmd := c }

/-- R25, R40: an opcode-table word placed as the host's next operation is the very next command to run; how a word is placed is
the model's choice (logs 1, 11). -/
def Obligations.PlacedWordRunsNext : Prop :=
  ∀ (s : State) (w : Nat) (i : Instr), w < 256 → decodeTableWord 8 w = some i →
    step (s.withFetchWord 8 w) = exec i { s with reply := none, cmd := BitVec.ofNat 8 w }

/-- R43, R45: a reserved byte ends in `IllegalCommand`: `CMD` and `STATUS` change, nothing else. -/
def Obligations.StepOnReservedByte : Prop :=
  ∀ (s : State) (c : Byte) (rest : List HostOp),
    s.pending = .cmd c :: rest → reservedByte c →
    step s = .next { s with pending := rest, reply := none, cmd := c, status := 0x84#8 }

/-- 10_state.md R24, 20_memory.md R35: `HostWriteIn` writes one byte of `IN` and nothing else of the block, and every later
read sees it; `HostSetInLen` writes `IN_LEN` and nothing else. -/
def Obligations.HostWritesTakeEffect : Prop :=
  (∀ s i v rest, s.pending = .writeIn i v :: rest → i < s.cfg.bufMax →
    ∃ t, step s = .next t ∧ t.readIn i = v ∧ (∀ j, j ≠ i → t.readIn j = s.readIn j) ∧
      t.inLen = s.inLen ∧ t.outLen = s.outLen ∧ t.cmd = s.cmd ∧ t.status = s.status ∧ t.cfg = s.cfg ∧
      t.epoch = s.epoch ∧ (∀ j, t.readOut j = s.readOut j) ∧ t.pending = rest ∧ t.reply = none) ∧
  (∀ s n rest, s.pending = .setInLen n :: rest →
    step s = .next { s with pending := rest, reply := none, inLen := n })

/-- R24, R34: each host read returns what it names and changes no state of the block. -/
def Obligations.HostReadsReturnAndChangeNothing : Prop :=
  ∀ s op rest, s.pending = op :: rest →
    (∀ i, op = .readIn i → i < s.cfg.bufMax →
      ∃ t, step s = .next t ∧ t.reply = some (.byte (s.readIn i)) ∧ BlockUnchanged s t ∧ t.pending = rest) ∧
    (∀ i, op = .readOut i → i < s.cfg.bufMax →
      ∃ t, step s = .next t ∧ t.reply = some (.byte (s.readOut i)) ∧ BlockUnchanged s t ∧ t.pending = rest) ∧
    (op = .readInLen →
      ∃ t, step s = .next t ∧ t.reply = some (.length s.inLen) ∧ BlockUnchanged s t ∧ t.pending = rest) ∧
    (op = .readOutLen →
      ∃ t, step s = .next t ∧ t.reply = some (.length s.outLen) ∧ BlockUnchanged s t ∧ t.pending = rest) ∧
    (op = .readCmd →
      ∃ t, step s = .next t ∧ t.reply = some (.byte s.cmd) ∧ BlockUnchanged s t ∧ t.pending = rest) ∧
    (op = .readStatus →
      ∃ t, step s = .next t ∧ t.reply = some (.byte s.status) ∧ BlockUnchanged s t ∧ t.pending = rest)

/-- R92: with no operation pending the block keeps its state; it has no halt state. That a step is then still a step is the
model's choice (log 1). -/
def Obligations.NothingPendingNothingHappens : Prop :=
  ∀ s : State, s.pending = [] → step s = .next s

/-- R24, U15: the machine stops exactly when the host uses an index at or beyond `BUF_MAX`; that the stop is a fault is the
model's choice (log 6). It never refuses. -/
def Obligations.OnlyBadIndexesStop : Prop :=
  ∀ s : State,
    ((∃ f, step s = .fault f) ↔ ∃ op rest, s.pending = op :: rest ∧ s.accepts op = false) ∧
    (∀ r, step s ≠ .refused r)

/-- 70_reset_and_hazards.md R92: every command terminates, with `DONE = 1` and a verdict in `ERR`, one of the codes 0 to 5 of
60_exceptions.md R80, and `CMD` holding the byte written. -/
def Obligations.EveryCommandEndsWithVerdict : Prop :=
  ∀ (c : Byte) (s : State), ∃ t, hostCmd c s = .next t ∧ t.done = 1#1 ∧ t.statusReserved = 0#3 ∧
    t.err.toNat ≤ 5 ∧ t.cmd = c

/- ## What the commands compute -/

/-- 40_base32_encode.md R50, R51, R55, 20_memory.md R31: `B32ENC` when the text fits. Character `8k+j` is the symbol of bits
`39-5j` to `35-5j` of the big-endian 40-bit integer of input block `k`, or `=` beyond the symbols that carry input bits. -/
def Obligations.EncodeCommandWritesTheText : Prop :=
  ∀ (a : Alphabet) (s : State), 8 * ((s.inLen.toNat + 4) / 5) ≤ s.cfg.bufMax →
    ∃ t, exec (.b32enc a) s = .next t ∧ t.status = 0x80#8 ∧
      t.outLen.toNat = 8 * ((s.inLen.toNat + 4) / 5) ∧
      (∀ k j, 5 * k < s.inLen.toNat → j < 8 →
        t.readOut (8 * k + j) =
          if j < symCount (min 5 (s.inLen.toNat - 5 * k)) then alpha a (blockSymbol s k j) else 0x3D#8) ∧
      (∀ i, t.outLen.toNat ≤ i → t.readOut i = s.readOut i) ∧ CommandFrame s t

/-- 41_base32_decode.md R60 to R66: `B32DEC` on text that fits, with a legal remainder and every symbol in the alphabet. Byte `i`
is byte `i mod 5` of the 40-bit integer of group `i div 5`. -/
def Obligations.DecodeCommandWritesTheBytes : Prop :=
  ∀ (a : Alphabet) (s : State) (c : Nat), s.inLen.toNat ≤ s.cfg.bufMax → IsTrueCount s c →
    c % 8 ∈ [0, 2, 4, 5, 7] → (∀ i, i < c → symVal a (s.readIn i) ≠ none) →
    ∃ t, exec (.b32dec a) s = .next t ∧ t.status = 0x80#8 ∧ t.outLen.toNat = 5 * c / 8 ∧
      (∀ i, i < 5 * c / 8 →
        t.readOut i = BitVec.ofNat 8 (groupNumber a s c (i / 5) / 2 ^ (32 - 8 * (i % 5)) % 2 ^ 8)) ∧
      (∀ i, t.outLen.toNat ≤ i → t.readOut i = s.readOut i) ∧ CommandFrame s t

/-- R61, R62, R66: `B32DEC` on text that fits but whose remainder is 1, 3 or 6 or that holds a character outside the alphabet
before its true end: `InvalidEncoding`, and nothing but `STATUS` changes. -/
def Obligations.DecodeCommandRejectsBadText : Prop :=
  ∀ (a : Alphabet) (s : State) (c : Nat), s.inLen.toNat ≤ s.cfg.bufMax → IsTrueCount s c →
    (c % 8 ∈ [1, 3, 6] ∨ ∃ i, i < c ∧ symVal a (s.readIn i) = none) →
    exec (.b32dec a) s = .next { s with status := 0x81#8 }

/-- 42_hotp_truncate.md R70 to R76: `HOTPTRUNC` on a digest of the selector's length with a legal digit count writes the decimal
digits of `P mod 10^digits`, most significant first. -/
def Obligations.TruncateCommandWritesTheCode : Prop :=
  ∀ (d : DigestSel) (n digits : Nat) (s : State), dlen d = some n → 1 ≤ digits → digits ≤ 9 → s.inLen.toNat = n →
    ∃ t, exec (.hotptrunc d digits) s = .next t ∧ t.status = 0x80#8 ∧ t.outLen.toNat = digits ∧
      (∀ i, i < digits →
        t.readOut i =
          BitVec.ofNat 8 (0x30 + digestSelection s n % 10 ^ digits / 10 ^ (digits - 1 - i) % 10)) ∧
      (∀ i, t.outLen.toNat ≤ i → t.readOut i = s.readOut i) ∧ CommandFrame s t

/-- 42_hotp_truncate.md R75: the checks of `HOTPTRUNC`, in their order; nothing but `STATUS` changes. For a digit count of 16 or
more, which no byte encodes, that the second check fails is the model's choice (log 8). -/
def Obligations.TruncateChecksInOrder : Prop :=
  ∀ (d : DigestSel) (digits : Nat) (s : State),
    (d = .reserved → exec (.hotptrunc d digits) s = .next { s with status := 0x83#8 }) ∧
    (d ≠ .reserved → digits < 1 ∨ 9 < digits →
      exec (.hotptrunc d digits) s = .next { s with status := 0x82#8 }) ∧
    (∀ n, dlen d = some n → 1 ≤ digits → digits ≤ 9 → s.inLen.toNat ≠ n →
      exec (.hotptrunc d digits) s = .next { s with status := 0x85#8 })

/-- 60_exceptions.md R82: when each command raises `LengthError`, and when it does not; nothing but `STATUS` changes. The first
includes every `IN_LEN > BUF_MAX`. -/
def Obligations.LengthErrorExactlyWhen : Prop :=
  (∀ (a : Alphabet) (s : State),
    s.cfg.bufMax < 8 * ((s.inLen.toNat + 4) / 5) ↔ exec (.b32enc a) s = .next { s with status := 0x85#8 }) ∧
  (∀ (a : Alphabet) (s : State), s.cfg.bufMax < s.inLen.toNat →
    exec (.b32enc a) s = .next { s with status := 0x85#8 }) ∧
  (∀ (a : Alphabet) (s : State),
    s.cfg.bufMax < s.inLen.toNat ↔ exec (.b32dec a) s = .next { s with status := 0x85#8 }) ∧
  (∀ (d : DigestSel) (n digits : Nat) (s : State), dlen d = some n → 1 ≤ digits → digits ≤ 9 →
    (s.inLen.toNat ≠ n ↔ exec (.hotptrunc d digits) s = .next { s with status := 0x85#8 }))

/- ## Errors -/

/-- R84: a command reports exactly one kind, the first that applies: IllegalCommand (4), UnsupportedDigest (3),
InvalidDigitCount (2), LengthError (5), InvalidEncoding (1); 0 when none does. With the rule's three examples. -/
def Obligations.FirstApplicableErrorIsReported : Prop :=
  (∀ (c : Byte) (s : State), ∃ t, hostCmd c s = .next t ∧
    (reservedByte c → t.err = 4#4) ∧
    (0xB0 ≤ c.toNat ∧ c.toNat ≤ 0xBF → t.err = 3#4) ∧
    (0x80 ≤ c.toNat ∧ c.toNat ≤ 0xAF → ¬ (1 ≤ c.toNat % 16 ∧ c.toNat % 16 ≤ 9) → t.err = 2#4) ∧
    (0x80 ≤ c.toNat ∧ c.toNat ≤ 0xAF → 1 ≤ c.toNat % 16 ∧ c.toNat % 16 ≤ 9 →
      t.err = if s.inLen.toNat = wantedLength c then 0#4 else 5#4) ∧
    (c = 0x00#8 ∨ c = 0x01#8 →
      t.err = if s.cfg.bufMax < 8 * ((s.inLen.toNat + 4) / 5) then 5#4 else 0#4) ∧
    (c = 0x40#8 ∨ c = 0x41#8 → s.cfg.bufMax < s.inLen.toNat → t.err = 5#4) ∧
    (c = 0x40#8 ∨ c = 0x41#8 → s.inLen.toNat ≤ s.cfg.bufMax →
      (t.err = 0#4 ↔ ∃ b, dec (alphabetOf (alphabetField c)) s.input = .ok b) ∧ (t.err = 0#4 ∨ t.err = 1#4))) ∧
  (∀ s, ∃ t, hostCmd 0xB0#8 s = .next t ∧ t.err = 3#4) ∧
  (∀ s, s.inLen = 5#16 → ∃ t, hostCmd 0x80#8 s = .next t ∧ t.err = 2#4) ∧
  (∀ s, s.inLen = 19#16 → ∃ t, hostCmd 0x86#8 s = .next t ∧ t.err = 5#4)

/-- R83: the state after a failed command is the state before it except for `CMD` and `STATUS`, which is `0x80 | code(K)`. -/
def Obligations.FailedCommandChangesOnlyCmdAndStatus : Prop :=
  ∀ (c : Byte) (s t : State), hostCmd c s = .next t → t.status ≠ 0x80#8 →
    ∃ k : ErrKind, t = { s with cmd := c, status := 0x80#8 ||| k.code.setWidth 8 }

/-- R34, 10_state.md R20, R21: a command that succeeds writes `OUT[0..OUT_LEN]`, `OUT_LEN` and `STATUS`; bytes of `OUT` at and
beyond the new `OUT_LEN` keep their old value, and everything else is as before. -/
def Obligations.SuccessfulCommandFrame : Prop :=
  ∀ (i : Instr) (s t : State), exec i s = .next t → t.status = 0x80#8 →
    CommandFrame s t ∧ (∀ j, t.outLen.toNat ≤ j → t.readOut j = s.readOut j) ∧
    t.outLen.toNat ≤ s.cfg.bufMax ∧ (∀ j, j < t.outLen.toNat → (t.outBuf.get j).isSome = true)

/-- R81, the rows of the three commands: in which ways each can end, and that it can in each. For a digit count of 16 or more,
which no byte encodes, the way is the model's choice (log 8). -/
def Obligations.WaysEachCommandCanEnd : Prop :=
  ∀ v : Byte,
    (∀ a, (∃ s t, exec (.b32enc a) s = .next t ∧ t.status = v) ↔ v ∈ [0x80#8, 0x85#8]) ∧
    (∀ a, (∃ s t, exec (.b32dec a) s = .next t ∧ t.status = v) ↔ v ∈ [0x80#8, 0x81#8, 0x85#8]) ∧
    ((∃ d n s t, exec (.hotptrunc d n) s = .next t ∧ t.status = v) ↔ v ∈ [0x80#8, 0x82#8, 0x83#8, 0x85#8])

/- ## Whole-machine rules -/

/-- 10_state.md R23, R26, 20_memory.md R34: the outcome of a command depends on the command byte, `IN_LEN`, `IN[0..IN_LEN]` and
the parameter `BUF_MAX` alone: not on `STATUS`, `OUT`, `OUT_LEN`, other bytes of `IN` or any earlier command. -/
def Obligations.OutcomeDependsOnlyOnTheInput : Prop :=
  ∀ (c : Byte) (s1 s2 t1 t2 : State), s1.cfg = s2.cfg → s1.inLen = s2.inLen →
    (∀ i, i < s1.inLen.toNat → s1.readIn i = s2.readIn i) →
    hostCmd c s1 = .next t1 → hostCmd c s2 = .next t2 →
    t1.cmd = t2.cmd ∧ t1.status = t2.status ∧
    (t1.status = 0x80#8 → t1.outLen = t2.outLen ∧ ∀ i, i < t1.outLen.toNat → t1.readOut i = t2.readOut i)

/-- 20_memory.md R34: every command is idempotent. The premise is the canonical form of `OUT`, which every step keeps. -/
def Obligations.CommandIsIdempotent : Prop :=
  ∀ (c : Byte) (s t u : State), s.outBuf.wf → hostCmd c s = .next t → hostCmd c t = .next u → u = t

/-- 10_state.md R23: `DONE` never returns to 0 except by reset. -/
def Obligations.DoneStaysUntilReset : Prop :=
  ∀ s t : State, step s = .next t → s.done = 1#1 → s.pending.head? ≠ some .reset → t.done = 1#1

/-- 10_state.md R18, R19: only `HostWriteIn` and `Reset()` change a byte of `IN`, only `HostSetInLen` and `Reset()` change
`IN_LEN`: no command does. -/
def Obligations.OnlyTheHostChangesTheInput : Prop :=
  ∀ s t : State, step s = .next t → s.pending.head? ≠ some .reset →
    ((∀ i v, s.pending.head? ≠ some (.writeIn i v)) → ∀ i, t.readIn i = s.readIn i) ∧
    ((∀ n, s.pending.head? ≠ some (.setInLen n)) → t.inLen = s.inLen)

/-- R20 to R23, 20_memory.md R37: only a command and `Reset()` change `OUT`, `OUT_LEN`, `STATUS` or `CMD`; and no step changes
`BUF_MAX`. -/
def Obligations.OnlyCommandsChangeTheResult : Prop :=
  ∀ s t : State, step s = .next t →
    t.cfg = s.cfg ∧
    (s.pending.head? ≠ some .reset → (∀ c, s.pending.head? ≠ some (.cmd c)) →
      (∀ i, t.readOut i = s.readOut i) ∧ t.outLen = s.outLen ∧ t.status = s.status ∧ t.cmd = s.cmd)

/- ## Laws of the encoder, the decoder and the truncator -/

/-- 40_base32_encode.md R50: the integer `V` of a block of 1 to 5 bytes, its eight fields, and the table of what each symbol is
made of. -/
def Obligations.EncodeSymbolFields : Prop :=
  ∀ blk : List Byte, 1 ≤ blk.length → blk.length ≤ 5 →
    (blockWord blk).toNat =
      (blk.getD 0 0#8).toNat * 2 ^ 32 + (blk.getD 1 0#8).toNat * 2 ^ 24 + (blk.getD 2 0#8).toNat * 2 ^ 16 +
      (blk.getD 3 0#8).toNat * 2 ^ 8 + (blk.getD 4 0#8).toNat ∧
    (∀ j, j < 8 → (encSym blk j).toNat = (blockWord blk).toNat / 2 ^ (35 - 5 * j) % 2 ^ 5) ∧
    encSym blk 0 = (blk.getD 0 0#8).extractLsb' 3 5 ∧
    encSym blk 1 = (blk.getD 0 0#8).extractLsb' 0 3 ++ (blk.getD 1 0#8).extractLsb' 6 2 ∧
    encSym blk 2 = (blk.getD 1 0#8).extractLsb' 1 5 ∧
    encSym blk 3 = (blk.getD 1 0#8).extractLsb' 0 1 ++ (blk.getD 2 0#8).extractLsb' 4 4 ∧
    encSym blk 4 = (blk.getD 2 0#8).extractLsb' 0 4 ++ (blk.getD 3 0#8).extractLsb' 7 1 ∧
    encSym blk 5 = (blk.getD 3 0#8).extractLsb' 2 5 ∧
    encSym blk 6 = (blk.getD 3 0#8).extractLsb' 0 2 ++ (blk.getD 4 0#8).extractLsb' 5 3 ∧
    encSym blk 7 = (blk.getD 4 0#8).extractLsb' 0 5

/-- R54: the empty input has the empty text, with no pad character. -/
def Obligations.EncodeOfNothingIsNothing : Prop :=
  ∀ a : Alphabet, enc a [] = []

/-- R53: the length and padding laws: a multiple of 8, `PADCOUNT[n mod 5]` pad bytes, all at the end, and the count of alphabet
symbols before them. -/
def Obligations.EncodePaddingLaw : Prop :=
  ∀ (a : Alphabet) (b : List Byte),
    (enc a b).length = 8 * ((b.length + 4) / 5) ∧
    (enc a b).count 0x3D#8 = padCount (b.length % 5) ∧
    ∃ vs : List Sym, vs.length = 8 * (b.length / 5) + symCount (b.length % 5) ∧
      enc a b = vs.map (alpha a) ++ List.replicate (padCount (b.length % 5)) 0x3D#8

/-- 41_base32_decode.md R60: `StripPad` finds the true content, and a trailing run of pad characters of any length changes
nothing: the text decodes alike. -/
def Obligations.TrailingPadsAreStripped : Prop :=
  (∀ t : List Byte, stripPad t ≤ t.length ∧
    (∀ i, stripPad t ≤ i → i < t.length → t[i]? = some 0x3D#8) ∧
    (0 < stripPad t → t[stripPad t - 1]? ≠ some 0x3D#8)) ∧
  (∀ (a : Alphabet) (t : List Byte) (n : Nat), stripPad (t ++ List.replicate n 0x3D#8) = stripPad t ∧
    dec a (t ++ List.replicate n 0x3D#8) = dec a t)

/-- R61, R62: `Dec` fails exactly when the remainder of the true count is 1, 3 or 6 or a lookup of the true content gives none,
and its error is `InvalidEncoding`. -/
def Obligations.DecodeFailsExactlyWhen : Prop :=
  ∀ (a : Alphabet) (t : List Byte),
    (dec a t = .error .invalidEncoding ↔
      (stripPad t % 8 ∈ [1, 3, 6] ∨ ∃ x ∈ t.take (stripPad t), symVal a x = none)) ∧
    (∀ k, dec a t = .error k → k = .invalidEncoding)

/-- R63: the 40-bit integer of a group, its bytes, and how many are taken; the bits below the last byte are dropped without a
check: two groups that differ in them alone give the same bytes. -/
def Obligations.DecodeGroupBytes : Prop :=
  ∀ v : List Sym, v.length ∈ [2, 4, 5, 7, 8] →
    (decGroup v).length = 5 * v.length / 8 ∧
    (groupWord v).toNat =
      (v.getD 0 0#5).toNat * 2 ^ 35 + (v.getD 1 0#5).toNat * 2 ^ 30 + (v.getD 2 0#5).toNat * 2 ^ 25 +
      (v.getD 3 0#5).toNat * 2 ^ 20 + (v.getD 4 0#5).toNat * 2 ^ 15 + (v.getD 5 0#5).toNat * 2 ^ 10 +
      (v.getD 6 0#5).toNat * 2 ^ 5 + (v.getD 7 0#5).toNat ∧
    (∀ i, i < 5 * v.length / 8 →
      ((decGroup v).getD i 0#8).toNat = (groupWord v).toNat / 2 ^ (32 - 8 * i) % 2 ^ 8) ∧
    (∀ w : List Sym, w.length = v.length → w.dropLast = v.dropLast →
      (w.getD (v.length - 1) 0#5).toNat / 2 ^ (5 * v.length % 8) =
        (v.getD (v.length - 1) 0#5).toNat / 2 ^ (5 * v.length % 8) →
      decGroup w = decGroup v)

/-- R65: the output length of `Dec`. -/
def Obligations.DecodeOutputLength : Prop :=
  ∀ (a : Alphabet) (t out : List Byte), dec a t = .ok out →
    (∃ nb, decBytes (stripPad t % 8) = some nb ∧ out.length = 5 * (stripPad t / 8) + nb) ∧
    out.length = 5 * stripPad t / 8 ∧ out.length ≤ stripPad t ∧ stripPad t ≤ t.length

/-- R67, first sentence: decoding the encoding of any byte sequence gives it back, for both alphabets. -/
def Obligations.DecodeInvertsEncode : Prop :=
  ∀ (a : Alphabet) (b : List Byte), dec a (enc a b) = .ok b

/-- R67, the other direction: an accepted text is the encoding of what it decodes to exactly when it is canonical. -/
def Obligations.EncodeInvertsDecodeOnCanonicalText : Prop :=
  ∀ (a : Alphabet) (t b : List Byte), dec a t = .ok b → (enc a b = t ↔ Canonical a t)

/-- R67, last sentence: the round trip through the block. The host encodes `n <= 5 * (BUF_MAX div 8)` bytes, copies the result
to `IN` and decodes it with the same alphabet: `OUT` then holds the first input. -/
def Obligations.RoundTripThroughTheBlock : Prop :=
  ∀ (a : Alphabet) (s t u : State), s.inLen.toNat ≤ 5 * (s.cfg.bufMax / 8) →
    exec (.b32enc a) s = .next t → u.cfg = t.cfg → u.inLen = t.outLen →
    (∀ i, i < t.outLen.toNat → u.readIn i = t.readOut i) →
    ∃ v, exec (.b32dec a) u = .next v ∧ v.status = 0x80#8 ∧ v.outLen = s.inLen ∧
      ∀ i, i < s.inLen.toNat → v.readOut i = s.readIn i

/-- 42_hotp_truncate.md R70: the offset is the low four bits of the LAST byte of the digest; its high four bits are ignored. -/
def Obligations.OffsetIsTheLastNibble : Prop :=
  ∀ d : List Byte, 20 ≤ d.length →
    truncOffset d = (d.getD (d.length - 1) 0#8 &&& 0x0F#8).setWidth 4 ∧ (truncOffset d).toNat ≤ 15 ∧
    (∀ e : List Byte, e.length = d.length →
      (e.getD (d.length - 1) 0#8).toNat % 16 = (d.getD (d.length - 1) 0#8).toNat % 16 → truncOffset e = truncOffset d)

/-- 42_hotp_truncate.md R71: `P` is the big-endian integer of the four bytes at the offset with bit 7 of the first cleared; the
window lies inside the digest and never holds its last byte. -/
def Obligations.TruncationWindow : Prop :=
  ∀ d : List Byte, 20 ≤ d.length →
    (truncOffset d).toNat = (d.getD (d.length - 1) 0#8).toNat % 16 ∧
    (truncSelect d).toNat =
      (d.getD (truncOffset d).toNat 0#8).toNat % 128 * 2 ^ 24 + (d.getD ((truncOffset d).toNat + 1) 0#8).toNat * 2 ^ 16 +
      (d.getD ((truncOffset d).toNat + 2) 0#8).toNat * 2 ^ 8 + (d.getD ((truncOffset d).toNat + 3) 0#8).toNat ∧
    (truncOffset d).toNat + 3 ≤ 18 ∧ (truncOffset d).toNat + 3 < d.length - 1

/-- R72, 10_state.md R16: the code value is the remainder by `10^digits`, below it, and every modulus fits 31 bits. -/
def Obligations.CodeValueIsTheRemainder : Prop :=
  ∀ (p : BitVec 31) (digits : Nat), 1 ≤ digits → digits ≤ 9 →
    truncMod p digits = p.toNat % 10 ^ digits ∧ truncMod p digits ≤ 10 ^ digits - 1 ∧ 10 ^ digits < 2 ^ 31

/-- R73: the formatter gives exactly `digits` ASCII digits, most significant first, whose decimal value is the number: nothing
is cut and leading zeros are kept. -/
def Obligations.FormattedDigitsHaveTheValue : Prop :=
  ∀ value digits : Nat, 1 ≤ digits → digits ≤ 9 → value < 10 ^ digits →
    (truncFormat value digits).length = digits ∧
    (∀ x ∈ truncFormat value digits, 0x30 ≤ x.toNat ∧ x.toNat ≤ 0x39) ∧
    (∀ i, i < digits →
      ((truncFormat value digits).getD i 0#8).toNat = 0x30 + value / 10 ^ (digits - 1 - i) % 10) ∧
    Nat.ofDigits 10 ((truncFormat value digits).map fun x => x.toNat - 0x30).reverse = value

/-- R74, last sentence: only five bytes of the digest influence the result, the last one and the four of the window. -/
def Obligations.OnlyFiveDigestBytesMatter : Prop :=
  ∀ (d e : List Byte) (digits : Nat), 20 ≤ d.length → e.length = d.length →
    e.getD (d.length - 1) 0#8 = d.getD (d.length - 1) 0#8 →
    (∀ j, j < 4 →
      e.getD ((d.getD (d.length - 1) 0#8).toNat % 16 + j) 0#8 = d.getD ((d.getD (d.length - 1) 0#8).toNat % 16 + j) 0#8) →
    trunc e digits = trunc d digits

/- ## Invariants -/

/-- The reset state is a good one. -/
def Obligations.ResetStateIsGood : Prop :=
  State.reset.Inv

/-- Every step from a good state that answers a next state leaves a good one. -/
def Obligations.StepKeepsGoodStates : Prop :=
  ∀ s t : State, s.Inv → step s = .next t → t.Inv

/-- 10_state.md R23, 60_exceptions.md R80: in a good state the reserved bits of `STATUS` read 0, `ERR` is one of the codes 0 to 5,
and with `DONE = 0` the whole of `STATUS` is 0. -/
def Obligations.StatusOfGoodStates : Prop :=
  ∀ s : State, s.Inv → s.statusReserved = 0#3 ∧ s.err.toNat ≤ 5 ∧ (s.done = 0#1 → s.status = 0x00#8)

/-- Two buffers in canonical form with the same listed bytes are the same data (log 9). -/
def Obligations.EqualBuffersAreEqualData : Prop :=
  ∀ m n : Memory, m.wf → n.wf → (∀ i, m.get i = n.get i) → m = n
end

