-- ==== Sys2Proof/Laws/Base32.lean ====
section
/-! SUPPORT. The equations of the block and group recursions (40_base32_encode.md R52, 41_base32_decode.md R64) and the inductions
that follow them, said once. -/

namespace Sys2Proof.Machine

@[simp] theorem encBlock_length (a : Alphabet) (blk : List Byte) : (encBlock a blk).length = 8 := by
  simp [encBlock]

theorem encBlock_getD (a : Alphabet) (blk : List Byte) {j : Nat} (h : j < 8) :
    (encBlock a blk).getD j 0#8 = if j < symCount blk.length then alpha a (encSym blk j) else pad := by
  simp [encBlock, h]

theorem enc_full (a : Alphabet) (b0 b1 b2 b3 b4 : Byte) (rest : List Byte) :
    enc a (b0 :: b1 :: b2 :: b3 :: b4 :: rest) = encBlock a [b0, b1, b2, b3, b4] ++ enc a rest := by
  rw [enc]

theorem enc_partial (a : Alphabet) (b : List Byte) (h1 : 1 ≤ b.length) (h4 : b.length ≤ 4) : enc a b = encBlock a b := by
  match b, h1, h4 with
  | [_], _, _ => rfl
  | [_, _], _, _ => rfl
  | [_, _, _], _, _ => rfl
  | [_, _, _, _], _, _ => rfl

/-- Induction over the blocks of R52: nothing, a final partial block, a full block and the rest. -/
theorem blocks_induction {P : List Byte → Prop} (nothing : P [])
    (part : ∀ b, 1 ≤ b.length → b.length ≤ 4 → P b)
    (full : ∀ b0 b1 b2 b3 b4 rest, P rest → P (b0 :: b1 :: b2 :: b3 :: b4 :: rest)) : ∀ b, P b
  | [] => nothing
  | [_] => part _ (by simp) (by simp)
  | [_, _] => part _ (by simp) (by simp)
  | [_, _, _] => part _ (by simp) (by simp)
  | [_, _, _, _] => part _ (by simp) (by simp)
  | _ :: _ :: _ :: _ :: _ :: rest => full _ _ _ _ _ _ (blocks_induction nothing part full rest)

theorem decGroup_getD (v : List Sym) {i : Nat} (h : i < (decGroup v).length) :
    (decGroup v).getD i 0#8 = (groupWord v).extractLsb' (32 - 8 * i) 8 := by
  simp only [decGroup, List.length_map, List.length_range] at h
  simp [decGroup, h]

theorem decGroups_full (v0 v1 v2 v3 v4 v5 v6 v7 : Sym) (rest : List Sym) :
    decGroups (v0 :: v1 :: v2 :: v3 :: v4 :: v5 :: v6 :: v7 :: rest) =
      decGroup [v0, v1, v2, v3, v4, v5, v6, v7] ++ decGroups rest := by
  rw [decGroups]

theorem decGroups_partial (v : List Sym) (h1 : 1 ≤ v.length) (h7 : v.length ≤ 7) : decGroups v = decGroup v := by
  match v, h1, h7 with
  | [_], _, _ => rfl
  | [_, _], _, _ => rfl
  | [_, _, _], _, _ => rfl
  | [_, _, _, _], _, _ => rfl
  | [_, _, _, _, _], _, _ => rfl
  | [_, _, _, _, _, _], _, _ => rfl
  | [_, _, _, _, _, _, _], _, _ => rfl

/-- Induction over the groups of R64: nothing, a final partial group, a full group and the rest. -/
theorem groups_induction {P : List Sym → Prop} (nothing : P [])
    (part : ∀ v, 1 ≤ v.length → v.length ≤ 7 → P v)
    (full : ∀ v0 v1 v2 v3 v4 v5 v6 v7 rest, P rest →
      P (v0 :: v1 :: v2 :: v3 :: v4 :: v5 :: v6 :: v7 :: rest)) : ∀ v, P v
  | [] => nothing
  | [_] => part _ (by simp) (by simp)
  | [_, _] => part _ (by simp) (by simp)
  | [_, _, _] => part _ (by simp) (by simp)
  | [_, _, _, _] => part _ (by simp) (by simp)
  | [_, _, _, _, _] => part _ (by simp) (by simp)
  | [_, _, _, _, _, _] => part _ (by simp) (by simp)
  | [_, _, _, _, _, _, _] => part _ (by simp) (by simp)
  | _ :: _ :: _ :: _ :: _ :: _ :: _ :: _ :: rest =>
    full _ _ _ _ _ _ _ _ _ (groups_induction nothing part full rest)

theorem stripPadFrom_succ (t : List Byte) (c : Nat) :
    stripPadFrom t (c + 1) = if t[c]? = some pad then stripPadFrom t c else c + 1 := rfl

theorem symVals_length {a : Alphabet} {t : List Byte} {v : List Sym} (h : symVals a t = some v) : v.length = t.length := by
  induction t generalizing v with
  | nil => cases h; rfl
  | cons c cs ih =>
    unfold symVals at h
    cases hc : symVal a c with
    | none => rw [hc] at h; cases h
    | some w =>
      cases hs : symVals a cs with
      | none => rw [hc, hs] at h; cases h
      | some ws => rw [hc, hs] at h; cases h; simp [ih hs]

end Sys2Proof.Machine
end

