-- ==== Sys2Proof/Laws/Hotp.lean ====
section
/-! SUPPORT. The formatter of 42_hotp_truncate.md R73, character by character. -/

namespace Sys2Proof.Machine

@[simp] theorem truncFormat_length (value digits : Nat) : (truncFormat value digits).length = digits := by
  simp [truncFormat]

theorem truncFormat_getD (value : Nat) {digits i : Nat} (h : i < digits) :
    (truncFormat value digits).getD i 0#8 = BitVec.ofNat 8 (0x30 + value / pow10 (digits - 1 - i) % 10) := by
  simp [truncFormat, h]

@[simp] theorem trunc_length (d : List Byte) (digits : Nat) : (trunc d digits).length = digits := by
  simp [trunc]

end Sys2Proof.Machine
end

