-- ==== Sys2Proof/Laws/Memory.lean ====
section
/-! SUPPORT. The memory operations: what a read gives after a write, and that every write keeps the canonical form. -/

namespace Sys2Proof.Machine

@[simp] theorem Memory.get_nil (a : Nat) : Memory.get [] a = none := rfl

theorem Memory.get_cons (i : Nat) (v : Byte) (rest : Memory) (a : Nat) :
    Memory.get ((i, v) :: rest) a = if a = i then some v else Memory.get rest a := rfl

theorem Memory.set_cons (i : Nat) (w : Byte) (rest : Memory) (a : Nat) (v : Byte) :
    Memory.set ((i, w) :: rest) a v =
      if a < i then (a, v) :: (i, w) :: rest
      else if a = i then (a, v) :: rest
      else (i, w) :: Memory.set rest a v := rfl

@[simp] theorem Memory.setBytes_nil (m : Memory) (a : Nat) : Memory.setBytes m a [] = m := by
  cases m <;> rfl

@[simp] theorem Memory.setBytes_cons (m : Memory) (a : Nat) (v : Byte) (vs : List Byte) :
    Memory.setBytes m a (v :: vs) = Memory.setBytes (Memory.set m a v) (a + 1) vs := rfl

/-- A read after a write, at any index. -/
theorem Memory.get_set (m : Memory) (a b : Nat) (v : Byte) :
    Memory.get (Memory.set m a v) b = if b = a then some v else Memory.get m b := by
  induction m with
  | nil => rfl
  | cons cell rest ih =>
    obtain ⟨i, w⟩ := cell
    rw [Memory.set_cons]
    split
    · simp only [Memory.get_cons]
    · split
      · next h => subst h; simp only [Memory.get_cons]; split <;> rfl
      · simp only [Memory.get_cons, ih]
        split
        · next h1 h2 h3 => rw [if_neg (by omega)]
        · rfl

/-- Every index a write leaves listed was listed before, or is the written one. -/
theorem Memory.mem_set {m : Memory} {a : Nat} {v : Byte} {cell : Host.Cell} (h : cell ∈ Memory.set m a v) :
    cell = (a, v) ∨ cell ∈ m := by
  induction m with
  | nil => simpa [Memory.set] using h
  | cons head rest ih =>
    obtain ⟨i, w⟩ := head
    rw [Memory.set_cons] at h
    split at h
    · simpa using h
    · split at h
      · rcases List.mem_cons.1 h with h | h
        · exact .inl h
        · exact .inr (List.mem_cons_of_mem _ h)
      · rcases List.mem_cons.1 h with h | h
        · exact .inr (h ▸ List.mem_cons_self)
        · exact (ih h).imp id (List.mem_cons_of_mem _)

/-- A write keeps the canonical form. -/
theorem Memory.wf_set {m : Memory} (h : m.wf) (a : Nat) (v : Byte) : (Memory.set m a v).wf := by
  induction m with
  | nil => simp [Memory.wf, Memory.set]
  | cons head rest ih =>
    obtain ⟨i, w⟩ := head
    obtain ⟨h1, h2⟩ := List.pairwise_cons.1 h
    rw [Memory.set_cons]
    split
    · next hlt =>
      refine List.pairwise_cons.2 ⟨fun c hc => ?_, h⟩
      rcases List.mem_cons.1 hc with rfl | hc
      · exact hlt
      · exact Nat.lt_trans hlt (h1 c hc)
    · split
      · next heq => exact List.pairwise_cons.2 ⟨fun c hc => heq ▸ h1 c hc, h2⟩
      · refine List.pairwise_cons.2 ⟨fun c hc => ?_, ih h2⟩
        rcases Memory.mem_set hc with rfl | hc
        · show i < a; omega
        · exact h1 c hc

/-- A write below a bound keeps every listed index below it. -/
theorem Memory.within_set {m : Memory} {bound : Nat} (h : m.within bound) {a : Nat} (ha : a < bound) (v : Byte) :
    (Memory.set m a v).within bound := by
  intro c hc
  rcases Memory.mem_set hc with rfl | hc
  · exact ha
  · exact h c hc

/-- A read after a run of bytes is written: the run inside it, the old content outside it. -/
theorem Memory.get_setBytes (vs : List Byte) (m : Memory) (a b : Nat) :
    Memory.get (Memory.setBytes m a vs) b =
      if a ≤ b ∧ b < a + vs.length then vs[b - a]? else Memory.get m b := by
  induction vs generalizing m a with
  | nil => simp only [Memory.setBytes_nil, List.length_nil]; rw [if_neg (by omega)]
  | cons v vs ih =>
    rw [Memory.setBytes_cons, ih, Memory.get_set]
    simp only [List.length_cons]
    rcases Nat.lt_trichotomy b a with h | h | h
    · rw [if_neg (by omega), if_neg (by omega), if_neg (by omega)]
    · subst h
      rw [if_neg (by omega), if_pos rfl, if_pos (by omega)]
      simp
    · obtain ⟨k, rfl⟩ : ∃ k, b = a + 1 + k := ⟨b - (a + 1), by omega⟩
      have e1 : a + 1 + k - (a + 1) = k := by omega
      have e2 : a + 1 + k - a = k + 1 := by omega
      rw [e1, e2, List.getElem?_cons_succ, if_neg (show ¬ a + 1 + k = a by omega)]
      by_cases hk : k < vs.length
      · rw [if_pos (by omega), if_pos (by omega)]
      · rw [if_neg (by omega), if_neg (by omega)]

theorem Memory.wf_setBytes (vs : List Byte) {m : Memory} (h : m.wf) (a : Nat) : (Memory.setBytes m a vs).wf := by
  induction vs generalizing m a with
  | nil => simpa using h
  | cons v vs ih => exact ih (Memory.wf_set h a v) (a + 1)

theorem Memory.within_setBytes (vs : List Byte) {m : Memory} {bound : Nat} (h : m.within bound) {a : Nat}
    (ha : a + vs.length ≤ bound) : (Memory.setBytes m a vs).within bound := by
  induction vs generalizing m a with
  | nil => simpa using h
  | cons v vs ih =>
    simp only [List.length_cons] at ha
    exact ih (Memory.within_set h (by omega) v) (by omega)

end Sys2Proof.Machine
end

