-- ==== Sys2Proof/Laws/State.lean ====
section
/-! SUPPORT. Every named update of the state, field by field: no later proof unfolds a record update. -/

namespace Sys2Proof.Machine

variable (s : State)

@[simp] theorem State.writeIn_cfg (i : Nat) (v : Byte) : (s.writeIn i v).cfg = s.cfg := rfl
@[simp] theorem State.writeIn_inBuf (i : Nat) (v : Byte) : (s.writeIn i v).inBuf = s.inBuf.set i v := rfl
@[simp] theorem State.writeIn_inLen (i : Nat) (v : Byte) : (s.writeIn i v).inLen = s.inLen := rfl
@[simp] theorem State.writeIn_outBuf (i : Nat) (v : Byte) : (s.writeIn i v).outBuf = s.outBuf := rfl
@[simp] theorem State.writeIn_outLen (i : Nat) (v : Byte) : (s.writeIn i v).outLen = s.outLen := rfl
@[simp] theorem State.writeIn_cmd (i : Nat) (v : Byte) : (s.writeIn i v).cmd = s.cmd := rfl
@[simp] theorem State.writeIn_status (i : Nat) (v : Byte) : (s.writeIn i v).status = s.status := rfl
@[simp] theorem State.writeIn_epoch (i : Nat) (v : Byte) : (s.writeIn i v).epoch = s.epoch := rfl
@[simp] theorem State.writeIn_pending (i : Nat) (v : Byte) : (s.writeIn i v).pending = s.pending := rfl
@[simp] theorem State.writeIn_reply (i : Nat) (v : Byte) : (s.writeIn i v).reply = s.reply := rfl

@[simp] theorem State.setInLen_cfg (n : Length) : (s.setInLen n).cfg = s.cfg := rfl
@[simp] theorem State.setInLen_inBuf (n : Length) : (s.setInLen n).inBuf = s.inBuf := rfl
@[simp] theorem State.setInLen_inLen (n : Length) : (s.setInLen n).inLen = n := rfl
@[simp] theorem State.setInLen_outBuf (n : Length) : (s.setInLen n).outBuf = s.outBuf := rfl
@[simp] theorem State.setInLen_outLen (n : Length) : (s.setInLen n).outLen = s.outLen := rfl
@[simp] theorem State.setInLen_cmd (n : Length) : (s.setInLen n).cmd = s.cmd := rfl
@[simp] theorem State.setInLen_status (n : Length) : (s.setInLen n).status = s.status := rfl
@[simp] theorem State.setInLen_epoch (n : Length) : (s.setInLen n).epoch = s.epoch := rfl
@[simp] theorem State.setInLen_pending (n : Length) : (s.setInLen n).pending = s.pending := rfl
@[simp] theorem State.setInLen_reply (n : Length) : (s.setInLen n).reply = s.reply := rfl

@[simp] theorem State.setCmd_cfg (c : Byte) : (s.setCmd c).cfg = s.cfg := rfl
@[simp] theorem State.setCmd_inBuf (c : Byte) : (s.setCmd c).inBuf = s.inBuf := rfl
@[simp] theorem State.setCmd_inLen (c : Byte) : (s.setCmd c).inLen = s.inLen := rfl
@[simp] theorem State.setCmd_outBuf (c : Byte) : (s.setCmd c).outBuf = s.outBuf := rfl
@[simp] theorem State.setCmd_outLen (c : Byte) : (s.setCmd c).outLen = s.outLen := rfl
@[simp] theorem State.setCmd_cmd (c : Byte) : (s.setCmd c).cmd = c := rfl
@[simp] theorem State.setCmd_status (c : Byte) : (s.setCmd c).status = s.status := rfl
@[simp] theorem State.setCmd_epoch (c : Byte) : (s.setCmd c).epoch = s.epoch := rfl
@[simp] theorem State.setCmd_pending (c : Byte) : (s.setCmd c).pending = s.pending := rfl
@[simp] theorem State.setCmd_reply (c : Byte) : (s.setCmd c).reply = s.reply := rfl

@[simp] theorem State.answer_cfg (r : Reply) : (s.answer r).cfg = s.cfg := rfl
@[simp] theorem State.answer_inBuf (r : Reply) : (s.answer r).inBuf = s.inBuf := rfl
@[simp] theorem State.answer_inLen (r : Reply) : (s.answer r).inLen = s.inLen := rfl
@[simp] theorem State.answer_outBuf (r : Reply) : (s.answer r).outBuf = s.outBuf := rfl
@[simp] theorem State.answer_outLen (r : Reply) : (s.answer r).outLen = s.outLen := rfl
@[simp] theorem State.answer_cmd (r : Reply) : (s.answer r).cmd = s.cmd := rfl
@[simp] theorem State.answer_status (r : Reply) : (s.answer r).status = s.status := rfl
@[simp] theorem State.answer_epoch (r : Reply) : (s.answer r).epoch = s.epoch := rfl
@[simp] theorem State.answer_pending (r : Reply) : (s.answer r).pending = s.pending := rfl
@[simp] theorem State.answer_reply (r : Reply) : (s.answer r).reply = some r := rfl

@[simp] theorem State.issue_cfg (rest : List HostOp) : (s.issue rest).cfg = s.cfg := rfl
@[simp] theorem State.issue_inBuf (rest : List HostOp) : (s.issue rest).inBuf = s.inBuf := rfl
@[simp] theorem State.issue_inLen (rest : List HostOp) : (s.issue rest).inLen = s.inLen := rfl
@[simp] theorem State.issue_outBuf (rest : List HostOp) : (s.issue rest).outBuf = s.outBuf := rfl
@[simp] theorem State.issue_outLen (rest : List HostOp) : (s.issue rest).outLen = s.outLen := rfl
@[simp] theorem State.issue_cmd (rest : List HostOp) : (s.issue rest).cmd = s.cmd := rfl
@[simp] theorem State.issue_status (rest : List HostOp) : (s.issue rest).status = s.status := rfl
@[simp] theorem State.issue_epoch (rest : List HostOp) : (s.issue rest).epoch = s.epoch := rfl
@[simp] theorem State.issue_pending (rest : List HostOp) : (s.issue rest).pending = rest := rfl
@[simp] theorem State.issue_reply (rest : List HostOp) : (s.issue rest).reply = none := rfl

@[simp] theorem State.succeed_cfg (bytes : List Byte) : (s.succeed bytes).cfg = s.cfg := rfl
@[simp] theorem State.succeed_inBuf (bytes : List Byte) : (s.succeed bytes).inBuf = s.inBuf := rfl
@[simp] theorem State.succeed_inLen (bytes : List Byte) : (s.succeed bytes).inLen = s.inLen := rfl
@[simp] theorem State.succeed_outBuf (bytes : List Byte) : (s.succeed bytes).outBuf = s.outBuf.setBytes 0 bytes := rfl
@[simp] theorem State.succeed_outLen (bytes : List Byte) : (s.succeed bytes).outLen = BitVec.ofNat 16 bytes.length := rfl
@[simp] theorem State.succeed_cmd (bytes : List Byte) : (s.succeed bytes).cmd = s.cmd := rfl
@[simp] theorem State.succeed_status (bytes : List Byte) : (s.succeed bytes).status = statusSuccess := rfl
@[simp] theorem State.succeed_epoch (bytes : List Byte) : (s.succeed bytes).epoch = s.epoch := rfl
@[simp] theorem State.succeed_pending (bytes : List Byte) : (s.succeed bytes).pending = s.pending := rfl
@[simp] theorem State.succeed_reply (bytes : List Byte) : (s.succeed bytes).reply = s.reply := rfl

@[simp] theorem State.fail_cfg (k : ErrKind) : (s.fail k).cfg = s.cfg := rfl
@[simp] theorem State.fail_inBuf (k : ErrKind) : (s.fail k).inBuf = s.inBuf := rfl
@[simp] theorem State.fail_inLen (k : ErrKind) : (s.fail k).inLen = s.inLen := rfl
@[simp] theorem State.fail_outBuf (k : ErrKind) : (s.fail k).outBuf = s.outBuf := rfl
@[simp] theorem State.fail_outLen (k : ErrKind) : (s.fail k).outLen = s.outLen := rfl
@[simp] theorem State.fail_cmd (k : ErrKind) : (s.fail k).cmd = s.cmd := rfl
@[simp] theorem State.fail_status (k : ErrKind) : (s.fail k).status = statusFailure k := rfl
@[simp] theorem State.fail_epoch (k : ErrKind) : (s.fail k).epoch = s.epoch := rfl
@[simp] theorem State.fail_pending (k : ErrKind) : (s.fail k).pending = s.pending := rfl
@[simp] theorem State.fail_reply (k : ErrKind) : (s.fail k).reply = s.reply := rfl

@[simp] theorem State.resetBlock_cfg : s.resetBlock.cfg = s.cfg := rfl
@[simp] theorem State.resetBlock_inBuf : s.resetBlock.inBuf = [] := rfl
@[simp] theorem State.resetBlock_inLen : s.resetBlock.inLen = 0#16 := rfl
@[simp] theorem State.resetBlock_outBuf : s.resetBlock.outBuf = [] := rfl
@[simp] theorem State.resetBlock_outLen : s.resetBlock.outLen = 0#16 := rfl
@[simp] theorem State.resetBlock_cmd : s.resetBlock.cmd = 0x00#8 := rfl
@[simp] theorem State.resetBlock_status : s.resetBlock.status = 0x00#8 := rfl
@[simp] theorem State.resetBlock_epoch : s.resetBlock.epoch = s.epoch + 1 := rfl
@[simp] theorem State.resetBlock_pending : s.resetBlock.pending = s.pending := rfl
@[simp] theorem State.resetBlock_reply : s.resetBlock.reply = s.reply := rfl

@[simp] theorem State.enqueueFirst_cfg (op : HostOp) : (s.enqueueFirst op).cfg = s.cfg := rfl
@[simp] theorem State.enqueueFirst_inBuf (op : HostOp) : (s.enqueueFirst op).inBuf = s.inBuf := rfl
@[simp] theorem State.enqueueFirst_inLen (op : HostOp) : (s.enqueueFirst op).inLen = s.inLen := rfl
@[simp] theorem State.enqueueFirst_outBuf (op : HostOp) : (s.enqueueFirst op).outBuf = s.outBuf := rfl
@[simp] theorem State.enqueueFirst_outLen (op : HostOp) : (s.enqueueFirst op).outLen = s.outLen := rfl
@[simp] theorem State.enqueueFirst_cmd (op : HostOp) : (s.enqueueFirst op).cmd = s.cmd := rfl
@[simp] theorem State.enqueueFirst_status (op : HostOp) : (s.enqueueFirst op).status = s.status := rfl
@[simp] theorem State.enqueueFirst_epoch (op : HostOp) : (s.enqueueFirst op).epoch = s.epoch := rfl
@[simp] theorem State.enqueueFirst_pending (op : HostOp) : (s.enqueueFirst op).pending = op :: s.pending := rfl
@[simp] theorem State.enqueueFirst_reply (op : HostOp) : (s.enqueueFirst op).reply = s.reply := rfl

end Sys2Proof.Machine
end

