-- ==== Sys2Proof/Laws/Ops.lean ====
section
/-! SUPPORT. What each named operation does, said once through reads of one byte; what a command and a host operation can
answer. -/

namespace Sys2Proof.Machine

/-- `IN[i]` depends on the listed input bytes and the epoch alone. -/
theorem State.readIn_congr {s t : State} (hb : t.inBuf = s.inBuf) (he : t.epoch = s.epoch) (i : Nat) :
    t.readIn i = s.readIn i := by
  simp only [State.readIn, hb, he]

theorem State.readOut_congr {s t : State} (hb : t.outBuf = s.outBuf) (he : t.epoch = s.epoch) (i : Nat) :
    t.readOut i = s.readOut i := by
  simp only [State.readOut, hb, he]

@[simp] theorem State.input_length (s : State) : s.input.length = s.inLen.toNat := by
  simp [State.input]

@[simp] theorem State.output_length (s : State) : s.output.length = s.outLen.toNat := by
  simp [State.output]

theorem State.input_getElem? (s : State) {i : Nat} (h : i < s.inLen.toNat) : s.input[i]? = some (s.readIn i) := by
  simp [State.input, h]

theorem State.input_getD (s : State) {i : Nat} (h : i < s.inLen.toNat) (d : Byte) : s.input.getD i d = s.readIn i := by
  rw [List.getD_eq_getElem?_getD, State.input_getElem? s h, Option.getD_some]

theorem State.readIn_writeIn (s : State) (i j : Nat) (v : Byte) :
    (s.writeIn i v).readIn j = if j = i then v else s.readIn j := by
  simp only [State.readIn, State.writeIn_inBuf, State.writeIn_epoch, Memory.get_set]
  split <;> rfl

/-- The bytes a success writes, and the old bytes beyond them (10_state.md R20). -/
theorem State.readOut_succeed (s : State) (bytes : List Byte) (i : Nat) :
    (s.succeed bytes).readOut i = if h : i < bytes.length then bytes[i] else s.readOut i := by
  simp only [State.readOut, State.succeed_outBuf, State.succeed_epoch, Memory.get_setBytes]
  split
  · next h =>
    have h2 : i < bytes.length := by omega
    rw [dif_pos h2]
    simp [h2]
  · next h => rw [dif_neg (by omega)]

@[simp] theorem State.readIn_succeed (s : State) (bytes : List Byte) (i : Nat) :
    (s.succeed bytes).readIn i = s.readIn i := State.readIn_congr rfl rfl i

@[simp] theorem State.readIn_fail (s : State) (k : ErrKind) (i : Nat) : (s.fail k).readIn i = s.readIn i :=
  State.readIn_congr rfl rfl i

@[simp] theorem State.readOut_fail (s : State) (k : ErrKind) (i : Nat) : (s.fail k).readOut i = s.readOut i :=
  State.readOut_congr rfl rfl i

/-- `OUT[0..OUT_LEN]` after a success is the result, when it fits `OUT_LEN`. -/
theorem State.output_succeed (s : State) (bytes : List Byte) (h : bytes.length < 2 ^ 16) :
    (s.succeed bytes).output = bytes := by
  have hl : (BitVec.ofNat 16 bytes.length).toNat = bytes.length := by
    rw [BitVec.toNat_ofNat]; exact Nat.mod_eq_of_lt h
  apply List.ext_getElem
  · simp [hl]
  · intro i h1 h2
    simp [State.output, State.readOut_succeed, h2]

theorem execB32enc_eq (a : Alphabet) (s : State) :
    execB32enc a s = .next
      (if s.cfg.bufMax < encodedLength s.inLen.toNat then s.fail .lengthError else s.succeed (enc a s.input)) := by
  unfold execB32enc
  split <;> rfl

theorem execB32dec_eq (a : Alphabet) (s : State) :
    execB32dec a s = .next
      (if s.cfg.bufMax < s.inLen.toNat then s.fail .lengthError
       else match dec a s.input with
        | .error k => s.fail k
        | .ok bytes => s.succeed bytes) := by
  unfold execB32dec
  split
  · rfl
  · cases dec a s.input <;> rfl

theorem execHotptrunc_eq (dsel : DigestSel) (digits : Nat) (s : State) :
    execHotptrunc dsel digits s = .next
      (match dlen dsel with
       | none => s.fail .unsupportedDigest
       | some n =>
         if digits < 1 ∨ 9 < digits then s.fail .invalidDigitCount
         else if s.inLen.toNat ≠ n then s.fail .lengthError
         else s.succeed (trunc s.input digits)) := by
  unfold execHotptrunc
  cases dlen dsel
  · rfl
  · dsimp only
    split
    · rfl
    · split <;> rfl

/-- Everything a command can do: it fails with one kind, or it succeeds with some bytes (30_encoding.md R43). -/
theorem exec_cases (i : Instr) (s : State) :
    (∃ k, exec i s = .next (s.fail k)) ∨ (∃ bytes, exec i s = .next (s.succeed bytes)) := by
  cases i with
  | b32enc a =>
    show (∃ k, execB32enc a s = _) ∨ (∃ bytes, execB32enc a s = _)
    rw [execB32enc_eq]
    split
    · exact .inl ⟨_, rfl⟩
    · exact .inr ⟨_, rfl⟩
  | b32dec a =>
    show (∃ k, execB32dec a s = _) ∨ (∃ bytes, execB32dec a s = _)
    rw [execB32dec_eq]
    split
    · exact .inl ⟨_, rfl⟩
    · cases dec a s.input
      · exact .inl ⟨_, rfl⟩
      · exact .inr ⟨_, rfl⟩
  | hotptrunc dsel digits =>
    show (∃ k, execHotptrunc dsel digits s = _) ∨ (∃ bytes, execHotptrunc dsel digits s = _)
    rw [execHotptrunc_eq]
    cases dlen dsel
    · exact .inl ⟨_, rfl⟩
    · dsimp only
      split
      · exact .inl ⟨_, rfl⟩
      · split
        · exact .inl ⟨_, rfl⟩
        · exact .inr ⟨_, rfl⟩

/-- Everything `HostCmd` can do. -/
theorem hostCmd_cases (c : Byte) (s : State) :
    (∃ e, decode c = .error e ∧ hostCmd c s = .next ((s.setCmd c).fail .illegalCommand)) ∨
    (∃ i, decode c = .ok i ∧ hostCmd c s = exec i (s.setCmd c)) := by
  unfold hostCmd
  cases h : decode c with
  | error e => exact .inl ⟨e, rfl, rfl⟩
  | ok i => exact .inr ⟨i, rfl, rfl⟩

/-- Everything a step can do: nothing is pending, or the next operation is performed. -/
theorem issueNext_cases (s : State) :
    (s.pending = [] ∧ issueNext s = .next s) ∨
    (∃ op rest, s.pending = op :: rest ∧ issueNext s = perform op (s.issue rest)) := by
  unfold issueNext
  cases h : s.pending with
  | nil => exact .inl ⟨rfl, rfl⟩
  | cons op rest => exact .inr ⟨op, rest, rfl, rfl⟩

end Sys2Proof.Machine
end

