-- ==== Sys2Proof/Laws/PerInstr.lean ====
section
/-! SUPPORT. Per-command facts about the encoding: a command's byte selects its own row of the opcode table and no other. -/

namespace Sys2Proof.Laws.OpcodeRow

/-- The byte of a command is selected by its row's match and mask and by no other row of the table (30_encoding.md R47). -/
def Statement (i : Sys2Proof.Instr) : Prop :=
  ∀ row ∈ Sys2Proof.opcodeTable, row.selects (Sys2Proof.encode i) = decide (row = Sys2Proof.rowOf i)

theorem b32enc (alphabet : Sys2Proof.Alphabet) : Statement (.b32enc alphabet) := by
  cases alphabet <;> unfold Statement <;> decide

theorem b32dec (alphabet : Sys2Proof.Alphabet) : Statement (.b32dec alphabet) := by
  cases alphabet <;> unfold Statement <;> decide

theorem hotptrunc (dsel : Sys2Proof.DigestSel) (digits : Nat) : Statement (.hotptrunc dsel digits) := by
  have h : ∀ d : BitVec 4, ∀ row ∈ Sys2Proof.opcodeTable,
      row.selects (2#2 ++ dsel.bits ++ d) = decide (row = Sys2Proof.rowHotptrunc) := by
    cases dsel <;> decide
  exact h (BitVec.ofNat 4 digits)

end Sys2Proof.Laws.OpcodeRow
end

