-- ==== Sys2Proof/Laws/Step.lean ====
section
/-! SUPPORT. Everything a step can do, said once: the claims about runs are case splits over these. -/

namespace Sys2Proof.Machine

theorem step_nil {s : State} (h : s.pending = []) : step s = .next s := by
  unfold step issueNext; rw [h]

theorem step_cons {s : State} {op : HostOp} {rest : List HostOp} (h : s.pending = op :: rest) :
    step s = perform op (s.issue rest) := by
  unfold step issueNext; rw [h]

/-- A step that answers a next state: nothing was pending, or the next operation answered it. -/
theorem step_cases {s t : State} (h : step s = .next t) :
    (s.pending = [] ∧ t = s) ∨ ∃ op rest, s.pending = op :: rest ∧ perform op (s.issue rest) = .next t := by
  rcases issueNext_cases s with ⟨h1, h2⟩ | ⟨op, rest, h1, h2⟩
  · exact .inl ⟨h1, Host.Outcome.next.inj (h.symm.trans h2)⟩
  · exact .inr ⟨op, rest, h1, h2.symm.trans h⟩

/-- Everything a host operation that answers a next state can do: the two host writes, a read, a reset, a command. -/
theorem perform_cases {op : HostOp} {s t : State} (h : perform op s = .next t) :
    (∃ i v, op = .writeIn i v ∧ i < s.cfg.bufMax ∧ t = s.writeIn i v) ∨
    (∃ n, op = .setInLen n ∧ t = s.setInLen n) ∨
    (∃ r, t = s.answer r ∧ op ≠ .reset ∧ ∀ c, op ≠ .cmd c) ∨
    (op = .reset ∧ t = s.resetBlock) ∨
    (∃ c, op = .cmd c ∧ hostCmd c s = .next t) := by
  cases op with
  | writeIn i v =>
    change hostWriteIn i v s = _ at h
    unfold hostWriteIn at h
    split at h
    · next hi => exact .inl ⟨i, v, rfl, hi, (Host.Outcome.next.inj h).symm⟩
    · cases h
  | readIn i =>
    change hostReadIn i s = _ at h
    unfold hostReadIn at h
    split at h
    · exact .inr (.inr (.inl ⟨_, (Host.Outcome.next.inj h).symm, nofun, nofun⟩))
    · cases h
  | readOut i =>
    change hostReadOut i s = _ at h
    unfold hostReadOut at h
    split at h
    · exact .inr (.inr (.inl ⟨_, (Host.Outcome.next.inj h).symm, nofun, nofun⟩))
    · cases h
  | setInLen n => exact .inr (.inl ⟨n, rfl, (Host.Outcome.next.inj h).symm⟩)
  | reset => exact .inr (.inr (.inr (.inl ⟨rfl, (Host.Outcome.next.inj h).symm⟩)))
  | cmd c => exact .inr (.inr (.inr (.inr ⟨c, rfl, h⟩)))
  | readInLen | readCmd | readOutLen | readStatus =>
    exact .inr (.inr (.inl ⟨_, (Host.Outcome.next.inj h).symm, nofun, nofun⟩))

/-- `HostCmd` always answers a next state: a failure or a success, with `CMD` written first. -/
theorem hostCmd_ends (c : Byte) (s : State) :
    (∃ k, hostCmd c s = .next ((s.setCmd c).fail k)) ∨ (∃ bytes, hostCmd c s = .next ((s.setCmd c).succeed bytes)) := by
  rcases hostCmd_cases c s with ⟨_, _, h⟩ | ⟨i, _, h⟩
  · exact .inl ⟨_, h⟩
  · rw [h]; exact exec_cases i (s.setCmd c)

end Sys2Proof.Machine
end

