-- ==== Sys2Proof/Laws/Word.lean ====
section
/-! SUPPORT. Concatenation and bit fields as arithmetic (00_scope.md R5): the form in which omega closes a claim about slices. -/

namespace Sys2Proof.Laws

/-- A concatenation, with the left part more significant. -/
theorem append_toNat {m n : Nat} (x : BitVec m) (y : BitVec n) : (x ++ y).toNat = x.toNat * 2 ^ n + y.toNat := by
  rw [BitVec.toNat_append, ← Nat.shiftLeft_add_eq_or_of_lt y.isLt, Nat.shiftLeft_eq]

/-- `v[hi:lo] = floor(v / 2^lo) mod 2^(hi-lo+1)`. -/
theorem field_toNat {n : Nat} (v : BitVec n) (lo width : Nat) :
    (v.extractLsb' lo width).toNat = v.toNat / 2 ^ lo % 2 ^ width := by
  rw [BitVec.extractLsb'_toNat, Nat.shiftRight_eq_div_pow]

end Sys2Proof.Laws
end

