-- ==== Sys2Proof/Tests/Slice0.lean ====
section
/-! SUPPORT. The model's own tests: decoded words written out from 30_encoding.md R40, the well-formedness check, single commands
on the vectors of 95_test_vectors.md, and for every obligation with hypotheses a concrete case that meets them. -/

namespace Sys2Proof.Tests

open Sys2Proof.Machine

/- ## Well-formedness and decoding -/

/-- `DIGITS` has four bits: 16 has no encoding, 15 has. -/
theorem test_wf_refuses_digits_16 :
    (Instr.hotptrunc .sha1 16).wf = false ∧ (Instr.hotptrunc .sha1 15).wf = true := by decide

-- 0000000a
theorem test_decode_b32enc :
    decode 0b00000000#8 = .ok (.b32enc .std) ∧ decode 0b00000001#8 = .ok (.b32enc .hex) := by decide

-- 0100000a
theorem test_decode_b32dec :
    decode 0b01000000#8 = .ok (.b32dec .std) ∧ decode 0b01000001#8 = .ok (.b32dec .hex) := by decide

-- 10ssdddd
theorem test_decode_hotptrunc :
    decode 0b10000110#8 = .ok (.hotptrunc .sha1 6) ∧ decode 0b10011000#8 = .ok (.hotptrunc .sha256 8) ∧
    decode 0b10100001#8 = .ok (.hotptrunc .sha512 1) ∧ decode 0b10111111#8 = .ok (.hotptrunc .reserved 15) := by decide

-- R45, 95_test_vectors.md 2.4
theorem test_decode_reserved :
    decode 0x02#8 = .error .zeroFieldNotZero ∧ decode 0x20#8 = .error .zeroFieldNotZero ∧
    decode 0x60#8 = .error .zeroFieldNotZero ∧ decode 0xC0#8 = .error .unitReserved ∧
    decode 0xE5#8 = .error .unitReserved := by decide

theorem test_table_word : decodeTableWord 8 0x86 = some (.hotptrunc .sha1 6) ∧ decodeTableWord 8 0xFF = none := by decide

/- ## One command each -/

/-- `bytes` in `IN`, `IN_LEN` their count, and `HostCmd(c)` the next operation. -/
def loaded (bytes : List Byte) (c : Byte) : State :=
  { State.reset with
    inBuf := Memory.setBytes [] 0 bytes
    inLen := BitVec.ofNat 16 bytes.length
    pending := [.cmd c] }

/-- `STATUS` and `OUT[0..OUT_LEN]` of an outcome. -/
def verdict : Host.Outcome State Fault Refusal → Option (Byte × List Byte)
  | .next t => some (t.status, t.output)
  | .fault _ => none
  | .refused _ => none

-- E12, both columns: all 32 symbol values in order
theorem test_b32enc_all_symbols :
    verdict (step (loaded [0x00, 0x44, 0x32, 0x14, 0xC7, 0x42, 0x54, 0xB6, 0x35, 0xCF, 0x84, 0x65, 0x3A, 0x56, 0xD7, 0xC6, 0x75,
      0xBE, 0x77, 0xDF] 0x00#8)) =
      some (0x80#8, [0x41, 0x42, 0x43, 0x44, 0x45, 0x46, 0x47, 0x48, 0x49, 0x4A, 0x4B, 0x4C, 0x4D, 0x4E, 0x4F, 0x50, 0x51, 0x52,
        0x53, 0x54, 0x55, 0x56, 0x57, 0x58, 0x59, 0x5A, 0x32, 0x33, 0x34, 0x35, 0x36, 0x37]) ∧
    verdict (step (loaded [0x00, 0x44, 0x32, 0x14, 0xC7, 0x42, 0x54, 0xB6, 0x35, 0xCF, 0x84, 0x65, 0x3A, 0x56, 0xD7, 0xC6, 0x75,
      0xBE, 0x77, 0xDF] 0x01#8)) =
      some (0x80#8, [0x30, 0x31, 0x32, 0x33, 0x34, 0x35, 0x36, 0x37, 0x38, 0x39, 0x41, 0x42, 0x43, 0x44, 0x45, 0x46, 0x47, 0x48,
        0x49, 0x4A, 0x4B, 0x4C, 0x4D, 0x4E, 0x4F, 0x50, 0x51, 0x52, 0x53, 0x54, 0x55, 0x56]) := by decide +kernel

-- E20 "foobar" to "CPNMUOJ1E8======", and E14 DE AD BE EF to "32W353Y="
theorem test_b32enc_pads_the_last_block :
    verdict (step (loaded [0x66, 0x6F, 0x6F, 0x62, 0x61, 0x72] 0x01#8)) =
      some (0x80#8, [0x43, 0x50, 0x4E, 0x4D, 0x55, 0x4F, 0x4A, 0x31, 0x45, 0x38, 0x3D, 0x3D, 0x3D, 0x3D, 0x3D, 0x3D]) ∧
    verdict (step (loaded [0xDE, 0xAD, 0xBE, 0xEF] 0x00#8)) =
      some (0x80#8, [0x33, 0x32, 0x57, 0x33, 0x35, 0x33, 0x59, 0x3D]) := by decide +kernel

-- D22 "CPNMUOJ1E8======" to "foobar", and D7 "MZXW6YR=" to 66 6F 6F 62, its dropped bits 001
theorem test_b32dec_groups :
    verdict (step (loaded [0x43, 0x50, 0x4E, 0x4D, 0x55, 0x4F, 0x4A, 0x31, 0x45, 0x38, 0x3D, 0x3D, 0x3D, 0x3D, 0x3D, 0x3D] 0x41#8)) =
      some (0x80#8, [0x66, 0x6F, 0x6F, 0x62, 0x61, 0x72]) ∧
    verdict (step (loaded [0x4D, 0x5A, 0x58, 0x57, 0x36, 0x59, 0x52, 0x3D] 0x40#8)) =
      some (0x80#8, [0x66, 0x6F, 0x6F, 0x62]) := by decide +kernel

-- D14 "MY=A====", D13 "my======", D11 "MZXW6YTBO"
theorem test_b32dec_rejects :
    verdict (step (loaded [0x4D, 0x59, 0x3D, 0x41, 0x3D, 0x3D, 0x3D, 0x3D] 0x40#8)) = some (0x81#8, []) ∧
    verdict (step (loaded [0x6D, 0x79, 0x3D, 0x3D, 0x3D, 0x3D, 0x3D, 0x3D] 0x40#8)) = some (0x81#8, []) ∧
    verdict (step (loaded [0x4D, 0x5A, 0x58, 0x57, 0x36, 0x59, 0x54, 0x42, 0x4F] 0x40#8)) = some (0x81#8, []) := by decide +kernel

-- section 1.2, counter 9, 6 digits, and T5: "000042"
theorem test_hotptrunc_sha1 :
    verdict (step (loaded [0x16, 0x37, 0x40, 0x98, 0x09, 0xA6, 0x79, 0xDC, 0x69, 0x82, 0x07, 0x31, 0x0C, 0x8C, 0x7F, 0xC0, 0x72,
      0x90, 0xD9, 0xE5] 0x86#8)) = some (0x80#8, [0x35, 0x32, 0x30, 0x34, 0x38, 0x39]) ∧
    verdict (step (loaded [0x80, 0x00, 0x00, 0x2A, 0, 0, 0, 0, 0, 0, 0, 0, 0, 0, 0, 0, 0, 0, 0, 0xF0] 0x86#8)) =
      some (0x80#8, [0x30, 0x30, 0x30, 0x30, 0x34, 0x32]) := by decide +kernel

-- P4: SHA-256 with 8 digits, "46119246", and the same digest under the SHA-1 selector
theorem test_hotptrunc_sha256 :
    verdict (step (loaded [0x39, 0x25, 0x14, 0xC9, 0xDD, 0x41, 0x65, 0xD4, 0x70, 0x94, 0x56, 0x06, 0x2C, 0x78, 0xE0, 0x4E, 0x16,
      0xE6, 0x87, 0x18, 0x51, 0x59, 0x51, 0x33, 0x3B, 0xDB, 0x8B, 0x26, 0xCA, 0xA3, 0x05, 0x3C] 0x98#8)) =
      some (0x80#8, [0x34, 0x36, 0x31, 0x31, 0x39, 0x32, 0x34, 0x36]) ∧
    verdict (step (loaded (List.replicate 32 0x00#8) 0x88#8)) = some (0x85#8, []) := by decide +kernel

/-- An opcode-table word runs as the first command after reset: with `IN_LEN = 0` as R91 says. -/
theorem test_first_command_after_reset :
    verdict (step (State.reset.withFetchWord 8 0x00)) = some (0x80#8, []) ∧
    verdict (step (State.reset.withFetchWord 8 0x41)) = some (0x80#8, []) ∧
    verdict (step (State.reset.withFetchWord 8 0x86)) = some (0x85#8, []) ∧
    verdict (step (State.reset.withFetchWord 8 0xB0)) = some (0x83#8, []) ∧
    verdict (step (State.reset.withFetchWord 8 0xC0)) = some (0x84#8, []) := by decide +kernel

/- ## Cases that meet the hypotheses of the obligations -/

/-- The reset state with operations pending. -/
def asked (ops : List HostOp) : State := { State.reset with pending := ops }

/-- `bytes` in `IN` and nothing pending. -/
def holding (bytes : List Byte) : State :=
  { State.reset with inBuf := Memory.setBytes [] 0 bytes, inLen := BitVec.ofNat 16 bytes.length }

/-- The reset state with a length set. -/
def sized (n : Length) : State := { State.reset with inLen := n }

theorem witness_DecodeAfterEncode :
    (Instr.b32enc .hex).wf = true ∧ (Instr.b32dec .std).wf = true ∧ (Instr.hotptrunc .reserved 0).wf = true ∧
    (Instr.hotptrunc .sha512 15).wf = true := by decide

theorem witness_EncodeAfterDecode : decode 0xBF#8 = .ok (.hotptrunc .reserved 15) := by decide

theorem witness_BytesThatCanSucceed :
    ∃ t, hostCmd 0x40#8 State.reset = .next t ∧ t.status = 0x80#8 := ⟨_, rfl, by decide⟩

theorem witness_AlphabetTables :
    alpha .std 25#5 = 0x5A#8 ∧ alpha .std 26#5 = 0x32#8 ∧ alpha .hex 9#5 = 0x39#8 ∧ alpha .hex 10#5 = 0x41#8 := by decide

theorem witness_SymbolLookupInvertsTheAlphabet :
    symVal .std 0x41#8 = some 0#5 ∧ symVal .std 0x5A#8 = some 25#5 ∧ symVal .std 0x32#8 = some 26#5 ∧
    symVal .std 0x37#8 = some 31#5 ∧ symVal .std 0x40#8 = none ∧ symVal .std 0x5B#8 = none ∧ symVal .std 0x31#8 = none ∧
    symVal .std 0x38#8 = none ∧ symVal .hex 0x30#8 = some 0#5 ∧ symVal .hex 0x39#8 = some 9#5 ∧
    symVal .hex 0x41#8 = some 10#5 ∧ symVal .hex 0x56#8 = some 31#5 ∧ symVal .hex 0x57#8 = none ∧
    symVal .hex 0x5A#8 = none ∧ symVal .hex 0x61#8 = none ∧ symVal .std 0x7A#8 = none ∧ symVal .std 0x80#8 = none ∧
    symVal .hex 0xFF#8 = none := by decide

theorem witness_PartialBlockTables :
    symCount 1 = (8 * 1 + 4) / 5 ∧ symCount 5 = (8 * 5 + 4) / 5 ∧ padCount 4 = 8 - symCount 4 ∧
    decBytes (symCount 1) = some 1 := by decide

theorem witness_ResetOperationResetsTheBlock : (asked [.reset, .readStatus]).pending = .reset :: [.readStatus] := rfl

theorem witness_EmptyInputSucceeds : State.reset.inLen = 0#16 := rfl

theorem witness_StepRunsTheDecodedCommand :
    (asked [.cmd 0x86#8]).pending = .cmd 0x86#8 :: [] ∧ decode 0x86#8 = .ok (.hotptrunc .sha1 6) := by decide

theorem witness_PlacedWordRunsNext : 0xA9 < 256 ∧ decodeTableWord 8 0xA9 = some (.hotptrunc .sha512 9) := by decide

theorem witness_StepOnReservedByte :
    (asked [.cmd 0x02#8]).pending = .cmd 0x02#8 :: [] ∧ reservedByte 0x02#8 ∧ reservedByte 0x3F#8 ∧ reservedByte 0x42#8 ∧
    reservedByte 0x7F#8 ∧ reservedByte 0xC0#8 ∧ reservedByte 0xFF#8 ∧ ¬ reservedByte 0x41#8 ∧ ¬ reservedByte 0xBF#8 := by decide

theorem witness_HostWritesTakeEffect :
    (asked [.writeIn 415 0x5A#8]).pending = .writeIn 415 0x5A#8 :: [] ∧ 415 < (asked []).cfg.bufMax ∧
    (asked [.setInLen 65535#16]).pending = .setInLen 65535#16 :: [] := by decide

theorem witness_HostReadsReturnAndChangeNothing :
    (asked [.readIn 415]).pending = .readIn 415 :: [] ∧ 415 < (asked []).cfg.bufMax ∧
    (asked [.readOut 0]).pending = .readOut 0 :: [] ∧ 0 < (asked []).cfg.bufMax ∧
    (asked [.readInLen]).pending = .readInLen :: [] ∧ (asked [.readOutLen]).pending = .readOutLen :: [] ∧
    (asked [.readCmd]).pending = .readCmd :: [] ∧ (asked [.readStatus]).pending = .readStatus :: [] := by decide

theorem witness_NothingPendingNothingHappens : State.reset.pending = [] := rfl

theorem witness_OnlyBadIndexesStop :
    (asked [.readOut 416]).pending = .readOut 416 :: [] ∧ (asked []).accepts (.readOut 416) = false ∧
    (asked []).accepts (.readOut 415) = true := by decide

/-- The longest input that fits, with its first and last full block; and a partial block. -/
theorem witness_EncodeCommandWritesTheText :
    8 * (((sized 260#16).inLen.toNat + 4) / 5) ≤ (sized 260#16).cfg.bufMax ∧ 5 * 51 < (sized 260#16).inLen.toNat ∧ 7 < 8 ∧
    8 * (((sized 1#16).inLen.toNat + 4) / 5) ≤ (sized 1#16).cfg.bufMax ∧ 5 * 0 < (sized 1#16).inLen.toNat := by decide

theorem witness_DecodeCommandWritesTheBytes :
    (holding [0x4D, 0x59, 0x3D]).inLen.toNat ≤ (holding [0x4D, 0x59, 0x3D]).cfg.bufMax ∧ IsTrueCount (holding [0x4D, 0x59, 0x3D]) 2 ∧
    2 % 8 ∈ [0, 2, 4, 5, 7] ∧ (∀ i, i < 2 → symVal .std ((holding [0x4D, 0x59, 0x3D]).readIn i) ≠ none) := by
  refine ⟨by decide, ⟨by decide, ?_, by decide⟩, by decide, by decide⟩
  intro i h1 h2
  obtain rfl : i = 2 := by
    have h3 : i < 3 := h2
    omega
  decide

theorem witness_DecodeCommandRejectsBadText :
    (IsTrueCount (holding [0x4D]) 1 ∧ 1 % 8 ∈ [1, 3, 6]) ∧
    (IsTrueCount (holding [0x6D, 0x79]) 2 ∧ symVal .std ((holding [0x6D, 0x79]).readIn 0) = none) := by
  refine ⟨⟨⟨by decide, ?_, by decide⟩, by decide⟩, ⟨⟨by decide, ?_, by decide⟩, by decide⟩⟩
  · intro i h1 h2
    have h3 : i < 1 := h2
    omega
  · intro i h1 h2
    have h3 : i < 2 := h2
    omega

theorem witness_TruncateCommandWritesTheCode :
    (dlen .sha1 = some 20 ∧ (sized 20#16).inLen.toNat = 20) ∧ (dlen .sha256 = some 32 ∧ (sized 32#16).inLen.toNat = 32) ∧
    (dlen .sha512 = some 64 ∧ (sized 64#16).inLen.toNat = 64) ∧ 1 ≤ 1 ∧ 1 ≤ 9 ∧ 9 ≤ 9 := by decide

/-- Each check alone, at the ends of its range. -/
theorem witness_TruncateChecksInOrder :
    DigestSel.sha1 ≠ .reserved ∧ (0 < 1 ∨ 9 < 0) ∧ (10 < 1 ∨ 9 < 10) ∧
    dlen .sha1 = some 20 ∧ (sized 19#16).inLen.toNat ≠ 20 ∧ (sized 21#16).inLen.toNat ≠ 20 := by decide

theorem witness_LengthErrorExactlyWhen :
    (sized 261#16).cfg.bufMax < 8 * (((sized 261#16).inLen.toNat + 4) / 5) ∧
    (sized 417#16).cfg.bufMax < (sized 417#16).inLen.toNat ∧ dlen .sha256 = some 32 ∧ (sized 20#16).inLen.toNat ≠ 32 := by decide

/-- A byte at the ends of every range of the priority statement, and lengths on both sides of its bounds. -/
theorem witness_FirstApplicableErrorIsReported :
    (reservedByte 0x02#8 ∧ reservedByte 0xFF#8) ∧
    (0xB0 ≤ (0xB0#8).toNat ∧ (0xBF#8).toNat ≤ 0xBF) ∧
    (0x80 ≤ (0x80#8).toNat ∧ ¬ (1 ≤ (0x80#8).toNat % 16) ∧ (0xAF#8).toNat ≤ 0xAF ∧ ¬ ((0xAF#8).toNat % 16 ≤ 9)) ∧
    (1 ≤ (0x81#8).toNat % 16 ∧ (0x81#8).toNat % 16 ≤ 9 ∧ 1 ≤ (0xA9#8).toNat % 16 ∧ (0xA9#8).toNat % 16 ≤ 9) ∧
    ((sized 416#16).inLen.toNat ≤ (sized 416#16).cfg.bufMax ∧ (sized 417#16).cfg.bufMax < (sized 417#16).inLen.toNat) ∧
    (sized 5#16).inLen = 5#16 ∧ (sized 19#16).inLen = 19#16 := by decide

theorem witness_FailedCommandChangesOnlyCmdAndStatus : ∃ t, hostCmd 0xC0#8 State.reset = .next t ∧ t.status ≠ 0x80#8 := ⟨_, rfl, by decide⟩

theorem witness_SuccessfulCommandFrame :
    ∃ t, exec (.b32enc .std) (holding [0x66]) = .next t ∧ t.status = 0x80#8 ∧ t.outLen = 8#16 := ⟨_, rfl, by decide, by decide⟩

/-- Two states that agree in the input and differ in what a command must not read. -/
theorem witness_OutcomeDependsOnlyOnTheInput :
    ∃ t1 t2, hostCmd 0x00#8 (holding [0x66]) = .next t1 ∧
      hostCmd 0x00#8 { holding [0x66] with status := 0x84#8, outLen := 3#16 } = .next t2 ∧ t1.status = 0x80#8 :=
  ⟨_, _, rfl, rfl, by decide⟩

theorem witness_CommandIsIdempotent :
    (holding [0x66]).outBuf.wf ∧ ∃ t u, hostCmd 0x00#8 (holding [0x66]) = .next t ∧ hostCmd 0x00#8 t = .next u :=
  ⟨by decide, _, _, rfl, rfl⟩

theorem witness_DoneStaysUntilReset :
    ∃ t, step { asked [.cmd 0xC0#8] with status := 0x80#8 } = .next t ∧
      ({ asked [.cmd 0xC0#8] with status := 0x80#8 } : State).done = 1#1 ∧
      (asked [.cmd 0xC0#8]).pending.head? ≠ some .reset := ⟨_, rfl, by decide, by decide⟩

theorem witness_OnlyTheHostChangesTheInput :
    ∃ t, step (asked [.cmd 0x40#8]) = .next t ∧ (asked [.cmd 0x40#8]).pending.head? ≠ some .reset ∧
      (∀ i v, (asked [.cmd 0x40#8]).pending.head? ≠ some (.writeIn i v)) ∧
      (∀ n, (asked [.cmd 0x40#8]).pending.head? ≠ some (.setInLen n)) :=
  ⟨_, rfl, by decide, nofun, nofun⟩

theorem witness_OnlyCommandsChangeTheResult :
    ∃ t, step (asked [.writeIn 0 0x66#8]) = .next t ∧ (asked [.writeIn 0 0x66#8]).pending.head? ≠ some .reset ∧
      (∀ c, (asked [.writeIn 0 0x66#8]).pending.head? ≠ some (.cmd c)) := ⟨_, rfl, by decide, nofun⟩

theorem witness_EncodeSymbolFields :
    (1 ≤ [0xFF#8].length ∧ [0xFF#8].length ≤ 5) ∧
    (1 ≤ [0x12#8, 0x34#8, 0x56#8, 0x78#8, 0x9A#8].length ∧ [0x12#8, 0x34#8, 0x56#8, 0x78#8, 0x9A#8].length ≤ 5) := by decide

theorem witness_TrailingPadsAreStripped : 0 < stripPad [0x4D#8, 0x59#8, 0x3D#8] ∧ stripPad [0x4D#8, 0x59#8, 0x3D#8] < 3 := by decide

theorem witness_DecodeFailsExactlyWhen : dec .std [0x4D#8] = .error .invalidEncoding := rfl

/-- Groups of every legal size, and two that differ in their dropped bits alone ("MY" and "MZ"). -/
theorem witness_DecodeGroupBytes :
    (∀ m ∈ [2, 4, 5, 7, 8], (List.replicate m 0#5).length ∈ [2, 4, 5, 7, 8]) ∧
    [12#5, 25#5].length = [12#5, 24#5].length ∧ [12#5, 25#5].dropLast = [12#5, 24#5].dropLast ∧
    (([12#5, 25#5].getD 1 0#5).toNat / 2 ^ (5 * 2 % 8) = ([12#5, 24#5].getD 1 0#5).toNat / 2 ^ (5 * 2 % 8)) := by decide

theorem witness_DecodeOutputLength : dec .std [0x4D#8, 0x59#8] = .ok [0x66#8] := rfl

/-- An accepted text that is canonical and one that is not. -/
theorem witness_EncodeInvertsDecodeOnCanonicalText :
    dec .std [0x4D#8, 0x59#8, 0x3D#8, 0x3D#8, 0x3D#8, 0x3D#8, 0x3D#8, 0x3D#8] = .ok [0x66#8] ∧
    dec .std [0x4D#8, 0x5A#8] = .ok [0x66#8] := ⟨rfl, rfl⟩

theorem witness_RoundTripThroughTheBlock :
    (holding [0x66]).inLen.toNat ≤ 5 * ((holding [0x66]).cfg.bufMax / 8) ∧
    ∃ t, exec (.b32enc .std) (holding [0x66]) = .next t ∧
      (holding [0x4D, 0x59, 0x3D, 0x3D, 0x3D, 0x3D, 0x3D, 0x3D]).cfg = t.cfg ∧
      (holding [0x4D, 0x59, 0x3D, 0x3D, 0x3D, 0x3D, 0x3D, 0x3D]).inLen = t.outLen ∧
      (∀ i, i < t.outLen.toNat → (holding [0x4D, 0x59, 0x3D, 0x3D, 0x3D, 0x3D, 0x3D, 0x3D]).readIn i = t.readOut i) :=
  ⟨by decide, _, rfl, by decide, by decide, by decide +kernel⟩

theorem witness_TruncationWindow : 20 ≤ (List.replicate 20 0xFF#8).length ∧ 20 ≤ (List.replicate 64 0x00#8).length := by decide

theorem witness_OffsetIsTheLastNibble :
    (List.replicate 20 0xF3#8).length = (List.replicate 20 0x03#8).length ∧
    ((List.replicate 20 0xF3#8).getD 19 0#8).toNat % 16 = ((List.replicate 20 0x03#8).getD 19 0#8).toNat % 16 := by decide

theorem witness_CodeValueIsTheRemainder : (1 ≤ 1 ∧ 1 ≤ 9) ∧ (1 ≤ 9 ∧ 9 ≤ 9) := by decide

theorem witness_FormattedDigitsHaveTheValue : (1 ≤ 1 ∧ 0 < 10 ^ 1) ∧ (9 ≤ 9 ∧ 999999999 < 10 ^ 9) := by decide

/-- Two digests that differ outside the window and the last byte. -/
theorem witness_OnlyFiveDigestBytesMatter :
    20 ≤ (List.replicate 20 0x00#8).length ∧
    (List.replicate 10 0x00#8 ++ List.replicate 9 0xFF#8 ++ [0x00#8]).length = (List.replicate 20 0x00#8).length ∧
    (List.replicate 10 0x00#8 ++ List.replicate 9 0xFF#8 ++ [0x00#8]).getD 19 0#8 = (List.replicate 20 0x00#8).getD 19 0#8 ∧
    (∀ j, j < 4 → (List.replicate 10 0x00#8 ++ List.replicate 9 0xFF#8 ++ [0x00#8]).getD (0 + j) 0#8 =
      (List.replicate 20 0x00#8).getD (0 + j) 0#8) := by decide

/-- A good state after one command, with the next operation pending. -/
def afterOne : State :=
  { State.reset with outBuf := [(0, 0x66#8)], outLen := 1#16, cmd := 0x40#8, status := 0x80#8, pending := [.cmd 0x00#8] }

theorem witness_StatusOfGoodStates : afterOne.Inv where
  inCanonical := by decide
  outCanonical := by decide
  inWithin := by decide
  outWithin := by decide
  outLenFits := by decide
  outWritten := by
    intro i h
    obtain rfl : i = 0 := by
      have h1 : i < 1 := h
      omega
    decide
  statusLegal := .inr (.inl rfl)
  fresh := by decide

theorem witness_StepKeepsGoodStates : afterOne.Inv ∧ ∃ t, step afterOne = .next t := ⟨witness_StatusOfGoodStates, _, rfl⟩

theorem witness_EqualBuffersAreEqualData :
    Memory.wf [(0, 0x66#8), (3, 0x00#8)] ∧ ∀ i, Memory.get [(0, 0x66#8), (3, 0x00#8)] i = Memory.get [(0, 0x66#8), (3, 0x00#8)] i :=
  ⟨by decide, fun _ => rfl⟩

end Sys2Proof.Tests
end

namespace Sys2Proof.Machine

/-! ## How long a command's result is

Each command's result fits `OUT` whenever the command succeeds: this is what keeps `OUT_LEN` at most `BUF_MAX`. -/

/-- R53, R55: the text of `n` bytes has `8 * ((n + 4) div 5)` characters. -/
theorem enc_length (a : Alphabet) (b : List Byte) : (enc a b).length = encodedLength b.length := by
  induction b using blocks_induction with
  | nothing => rfl
  | part b h1 h4 => rw [enc_partial a b h1 h4, encBlock_length, encodedLength]; omega
  | full b0 b1 b2 b3 b4 rest ih =>
    simp only [enc_full, List.length_append, encBlock_length, ih, encodedLength, List.length_cons]
    omega

@[simp] theorem decGroup_length (v : List Sym) : (decGroup v).length = groupBytes v.length := by
  simp [decGroup]

/-- R63: a partial group gives no more bytes than it has symbols. -/
theorem groupBytes_le {m : Nat} (h : m < 8) : groupBytes m ≤ m := by
  revert m; decide

/-- R64, R65: five bytes for every full group and those of the final partial group. -/
theorem decGroups_length (v : List Sym) :
    (decGroups v).length = 5 * (v.length / 8) + groupBytes (v.length % 8) := by
  induction v using groups_induction with
  | nothing => rfl
  | part v h1 h7 =>
    rw [decGroups_partial v h1 h7, decGroup_length, Nat.div_eq_of_lt (by omega), Nat.mod_eq_of_lt (by omega), Nat.mul_zero,
      Nat.zero_add]
  | full v0 v1 v2 v3 v4 v5 v6 v7 rest ih =>
    have hg : (decGroup [v0, v1, v2, v3, v4, v5, v6, v7]).length = 5 := by simp [groupBytes]
    simp only [decGroups_full, List.length_append, hg, ih, List.length_cons, Nat.add_assoc, Nat.reduceAdd, Nat.add_mod_right]
    omega

/-- Everything an accepted text satisfies: a legal remainder, a value for every symbol, and the bytes of the groups (R64). -/
theorem dec_ok {a : Alphabet} {t out : List Byte} (h : dec a t = .ok out) :
    ∃ v, decBytes (stripPad t % 8) ≠ none ∧ symVals a (t.take (stripPad t)) = some v ∧ out = decGroups v := by
  unfold dec at h
  split at h
  · cases h
  · next hr =>
    split at h
    · cases h
    · next v hv => exact ⟨v, hr, hv, (Except.ok.inj h).symm⟩

/-- R65: a text decodes to no more bytes than it has characters. -/
theorem dec_length_le {a : Alphabet} {t out : List Byte} (h : dec a t = .ok out) : out.length ≤ t.length := by
  obtain ⟨v, -, hv, rfl⟩ := dec_ok h
  have hlen : v.length ≤ t.length := by
    rw [symVals_length hv, List.length_take]
    exact Nat.min_le_right _ _
  have hpart : groupBytes (v.length % 8) ≤ v.length % 8 := groupBytes_le (Nat.mod_lt _ (by decide))
  rw [decGroups_length]
  omega

/-! ## How a command ends

The outcome of a command on two states with the same input, said once. On one state it says that a success fits `OUT`; on two
states it says that the outcome depends on nothing else (R34). -/

/-- All a command may read (10_state.md R26, 20_memory.md R34): `BUF_MAX`, `IN_LEN` and `IN[0..IN_LEN]`. -/
structure SameInput (s t : State) : Prop where
  cfg : s.cfg = t.cfg
  inLen : s.inLen = t.inLen
  input : s.input = t.input

theorem SameInput.refl (s : State) : SameInput s s := ⟨rfl, rfl, rfl⟩

/-- The input is its bytes below `IN_LEN`. -/
theorem SameInput.of_bytes {s t : State} (hcfg : s.cfg = t.cfg) (hlen : s.inLen = t.inLen)
    (hbytes : ∀ i, i < s.inLen.toNat → s.readIn i = t.readIn i) : SameInput s t where
  cfg := hcfg
  inLen := hlen
  input := by
    rw [State.input, State.input, ← hlen]
    exact List.map_congr_left fun i hi => hbytes i (List.mem_range.1 hi)

theorem SameInput.setCmd {s t : State} (h : SameInput s t) (c : Byte) : SameInput (s.setCmd c) (t.setCmd c) :=
  ⟨h.cfg, h.inLen, h.input⟩

/-- Both runs fail with one kind, or both succeed with one result, and that fits `OUT`. -/
def EndAlike (run : State → Host.Outcome State Fault Refusal) (s t : State) : Prop :=
  (∃ k, run s = .next (s.fail k) ∧ run t = .next (t.fail k)) ∨
  (∃ bytes, bytes.length ≤ s.cfg.bufMax ∧ run s = .next (s.succeed bytes) ∧ run t = .next (t.succeed bytes))

theorem execB32enc_endAlike (a : Alphabet) {s t : State} (h : SameInput s t) : EndAlike (execB32enc a) s t := by
  unfold EndAlike
  rw [execB32enc_eq, execB32enc_eq, ← h.cfg, ← h.inLen, ← h.input]
  split
  · exact .inl ⟨_, rfl, rfl⟩
  · next hfits =>
    refine .inr ⟨_, ?_, rfl, rfl⟩
    rw [enc_length, State.input_length]
    exact Nat.le_of_not_lt hfits

theorem execB32dec_endAlike (a : Alphabet) {s t : State} (h : SameInput s t) : EndAlike (execB32dec a) s t := by
  unfold EndAlike
  rw [execB32dec_eq, execB32dec_eq, ← h.cfg, ← h.inLen, ← h.input]
  split
  · exact .inl ⟨_, rfl, rfl⟩
  · next hfits =>
    cases hd : dec a s.input with
    | error k => exact .inl ⟨k, rfl, rfl⟩
    | ok bytes =>
      have hle : bytes.length ≤ s.inLen.toNat := State.input_length s ▸ dec_length_le hd
      exact .inr ⟨bytes, hle.trans (Nat.le_of_not_lt hfits), rfl, rfl⟩

theorem execHotptrunc_endAlike (dsel : DigestSel) (digits : Nat) {s t : State} (h : SameInput s t) :
    EndAlike (execHotptrunc dsel digits) s t := by
  unfold EndAlike
  rw [execHotptrunc_eq, execHotptrunc_eq, ← h.inLen, ← h.input]
  cases dlen dsel with
  | none => exact .inl ⟨_, rfl, rfl⟩
  | some n =>
    dsimp only
    split
    · exact .inl ⟨_, rfl, rfl⟩
    · next hdigits =>
      split
      · exact .inl ⟨_, rfl, rfl⟩
      · refine .inr ⟨_, ?_, rfl, rfl⟩
        have := s.cfg.bufMax_ge
        rw [trunc_length]
        omega

/-- Every command ends alike on states with the same input. -/
theorem exec_endAlike (i : Instr) {s t : State} (h : SameInput s t) : EndAlike (exec i) s t := by
  cases i with
  | b32enc a => exact execB32enc_endAlike a h
  | b32dec a => exact execB32dec_endAlike a h
  | hotptrunc dsel digits => exact execHotptrunc_endAlike dsel digits h

theorem hostCmd_of_error {c : Byte} {e : DecodeError} (h : decode c = .error e) (s : State) :
    hostCmd c s = .next ((s.setCmd c).fail .illegalCommand) := by
  unfold hostCmd; rw [h]

theorem hostCmd_of_ok {c : Byte} {i : Instr} (h : decode c = .ok i) (s : State) : hostCmd c s = exec i (s.setCmd c) := by
  unfold hostCmd; rw [h]

/-- `HostCmd` ends alike on states with the same input, `CMD` written in both. -/
theorem hostCmd_endAlike (c : Byte) {s t : State} (h : SameInput s t) :
    (∃ k, hostCmd c s = .next ((s.setCmd c).fail k) ∧ hostCmd c t = .next ((t.setCmd c).fail k)) ∨
    (∃ bytes, bytes.length ≤ s.cfg.bufMax ∧ hostCmd c s = .next ((s.setCmd c).succeed bytes) ∧
      hostCmd c t = .next ((t.setCmd c).succeed bytes)) := by
  cases hd : decode c with
  | error e => exact .inl ⟨_, hostCmd_of_error hd s, hostCmd_of_error hd t⟩
  | ok i =>
    rw [hostCmd_of_ok hd, hostCmd_of_ok hd]
    exact exec_endAlike i (h.setCmd c)

/-! ## What a step does

`Performs` names the ways an operation can answer; a claim about a step is a case split over them. -/

/-- What an operation that answers has done: written `IN` or `IN_LEN`, read, reset the block, or run a command that failed or
succeeded. -/
inductive Performs (s : State) : HostOp → State → Prop
  | writeIn {i : Nat} {v : Byte} (hi : i < s.cfg.bufMax) : Performs s (.writeIn i v) (s.writeIn i v)
  | setInLen {n : Length} : Performs s (.setInLen n) (s.setInLen n)
  | read {op : HostOp} {r : Reply} (hreset : op ≠ .reset) (hcmd : ∀ c, op ≠ .cmd c) : Performs s op (s.answer r)
  | reset : Performs s .reset s.resetBlock
  | failed {c : Byte} {k : ErrKind} : Performs s (.cmd c) ((s.setCmd c).fail k)
  | succeeded {c : Byte} {bytes : List Byte} (hfits : bytes.length ≤ s.cfg.bufMax) :
      Performs s (.cmd c) ((s.setCmd c).succeed bytes)

theorem performs_of_perform {op : HostOp} {s t : State} (h : perform op s = .next t) : Performs s op t := by
  rcases perform_cases h with ⟨i, v, rfl, hi, rfl⟩ | ⟨n, rfl, rfl⟩ | ⟨r, rfl, hreset, hcmd⟩ | ⟨rfl, rfl⟩ | ⟨c, rfl, hc⟩
  · exact .writeIn hi
  · exact .setInLen
  · exact .read hreset hcmd
  · exact .reset
  · rcases hostCmd_endAlike c (SameInput.refl s) with ⟨k, hk, -⟩ | ⟨bytes, hfits, hb, -⟩
    · obtain rfl := Host.Outcome.next.inj (hk.symm.trans hc)
      exact .failed
    · obtain rfl := Host.Outcome.next.inj (hb.symm.trans hc)
      exact .succeeded hfits

/-- A step that answers a next state: nothing was pending, or the next operation did what `Performs` says. -/
theorem step_performs {s t : State} (h : step s = .next t) :
    (s.pending = [] ∧ t = s) ∨ ∃ op rest, s.pending = op :: rest ∧ Performs (s.issue rest) op t :=
  (step_cases h).imp_right fun ⟨op, rest, hp, hop⟩ => ⟨op, rest, hp, performs_of_perform hop⟩

@[simp] theorem State.accepts_issue (s : State) (rest : List HostOp) (op : HostOp) :
    (s.issue rest).accepts op = s.accepts op := by
  cases op <;> rfl

theorem perform_writeIn_of_lt {s : State} {i : Nat} (hi : i < s.cfg.bufMax) (v : Byte) :
    perform (.writeIn i v) s = .next (s.writeIn i v) := if_pos hi

theorem perform_readIn_of_lt {s : State} {i : Nat} (hi : i < s.cfg.bufMax) :
    perform (.readIn i) s = .next (s.answer (.byte (s.readIn i))) := if_pos hi

theorem perform_readOut_of_lt {s : State} {i : Nat} (hi : i < s.cfg.bufMax) :
    perform (.readOut i) s = .next (s.answer (.byte (s.readOut i))) := if_pos hi

/-- An operation of the interface answers a next state. -/
theorem perform_next_of_accepts {s : State} {op : HostOp} (h : s.accepts op = true) : ∃ t, perform op s = .next t := by
  cases op with
  | writeIn i v => exact ⟨_, perform_writeIn_of_lt (of_decide_eq_true h) v⟩
  | readIn i => exact ⟨_, perform_readIn_of_lt (of_decide_eq_true h)⟩
  | readOut i => exact ⟨_, perform_readOut_of_lt (of_decide_eq_true h)⟩
  | cmd c =>
    rcases hostCmd_ends c s with ⟨k, hk⟩ | ⟨bytes, hb⟩
    · exact ⟨_, hk⟩
    · exact ⟨_, hb⟩
  | setInLen | readInLen | readCmd | readOutLen | readStatus | reset => exact ⟨_, rfl⟩

/-- Any other is an access with a bad index, and stops the machine (log 6). -/
theorem perform_fault_of_not_accepts {s : State} {op : HostOp} (h : s.accepts op = false) :
    ∃ i, perform op s = .fault (.noSuchIndex i) := by
  cases op with
  | writeIn i v => exact ⟨i, if_neg (of_decide_eq_false h)⟩
  | readIn i => exact ⟨i, if_neg (of_decide_eq_false h)⟩
  | readOut i => exact ⟨i, if_neg (of_decide_eq_false h)⟩
  | setInLen | readInLen | cmd | readCmd | readOutLen | readStatus | reset => cases h

/-! ## `STATUS` -/

theorem statusSuccess_ne_zero : statusSuccess ≠ 0x00#8 := by decide

theorem statusFailure_ne_zero (k : ErrKind) : statusFailure k ≠ 0x00#8 := by
  cases k <;> decide

theorem statusFailure_ne_statusSuccess (k : ErrKind) : statusFailure k ≠ statusSuccess := by
  cases k <;> decide

/-- R23: a command that fails sets `DONE`. -/
@[simp] theorem State.fail_done (s : State) (k : ErrKind) : (s.fail k).done = 1#1 := by
  rw [State.done, State.fail_status]
  cases k <;> decide

/-- R23: a command that succeeds sets `DONE`. -/
@[simp] theorem State.succeed_done (s : State) (bytes : List Byte) : (s.succeed bytes).done = 1#1 := by
  rw [State.done, State.succeed_status]
  decide

/-! ## Good states -/

/-- `Inv` reads neither `IN_LEN` nor the model's own fields. -/
theorem State.Inv.congr {s t : State} (h : s.Inv) (hcfg : t.cfg = s.cfg) (hin : t.inBuf = s.inBuf) (hout : t.outBuf = s.outBuf)
    (hlen : t.outLen = s.outLen) (hcmd : t.cmd = s.cmd) (hstatus : t.status = s.status) : t.Inv where
  inCanonical := hin ▸ h.inCanonical
  outCanonical := hout ▸ h.outCanonical
  inWithin := hcfg ▸ hin ▸ h.inWithin
  outWithin := hcfg ▸ hout ▸ h.outWithin
  outLenFits := hcfg ▸ hlen ▸ h.outLenFits
  outWritten := hout ▸ hlen ▸ h.outWritten
  statusLegal := hstatus ▸ h.statusLegal
  fresh := hstatus ▸ hcmd ▸ hlen ▸ hout ▸ h.fresh

theorem State.Inv.issue {s : State} (h : s.Inv) (rest : List HostOp) : (s.issue rest).Inv := h.congr rfl rfl rfl rfl rfl rfl

theorem State.Inv.setInLen {s : State} (h : s.Inv) (n : Length) : (s.setInLen n).Inv := h.congr rfl rfl rfl rfl rfl rfl

theorem State.Inv.answer {s : State} (h : s.Inv) (r : Reply) : (s.answer r).Inv := h.congr rfl rfl rfl rfl rfl rfl

theorem State.Inv.writeIn {s : State} (h : s.Inv) {i : Nat} (hi : i < s.cfg.bufMax) (v : Byte) : (s.writeIn i v).Inv where
  inCanonical := Memory.wf_set h.inCanonical i v
  outCanonical := h.outCanonical
  inWithin := Memory.within_set h.inWithin hi v
  outWithin := h.outWithin
  outLenFits := h.outLenFits
  outWritten := h.outWritten
  statusLegal := h.statusLegal
  fresh := h.fresh

/-- `Reset()` leads to a good state from every state. -/
theorem State.resetBlock_inv (s : State) : s.resetBlock.Inv where
  inCanonical := List.Pairwise.nil
  outCanonical := List.Pairwise.nil
  inWithin := nofun
  outWithin := nofun
  outLenFits := Nat.zero_le _
  outWritten := nofun
  statusLegal := .inl rfl
  fresh := fun _ => ⟨rfl, rfl, rfl⟩

theorem State.Inv.failed {s : State} (h : s.Inv) (c : Byte) (k : ErrKind) : ((s.setCmd c).fail k).Inv where
  inCanonical := h.inCanonical
  outCanonical := h.outCanonical
  inWithin := h.inWithin
  outWithin := h.outWithin
  outLenFits := h.outLenFits
  outWritten := h.outWritten
  statusLegal := .inr (.inr ⟨k, rfl⟩)
  fresh := fun h0 => absurd h0 (statusFailure_ne_zero k)

/-- A length that fits `OUT` does not wrap in `OUT_LEN`: `BUF_MAX` is at most 65535 (R4). -/
theorem State.succeed_outLen_toNat (s : State) {bytes : List Byte} (h : bytes.length ≤ s.cfg.bufMax) :
    (s.succeed bytes).outLen.toNat = bytes.length := by
  have := s.cfg.bufMax_le
  rw [State.succeed_outLen, BitVec.toNat_ofNat]
  exact Nat.mod_eq_of_lt (by omega)

theorem State.Inv.succeeded {s : State} (h : s.Inv) (c : Byte) {bytes : List Byte} (hfits : bytes.length ≤ s.cfg.bufMax) :
    ((s.setCmd c).succeed bytes).Inv where
  inCanonical := h.inCanonical
  outCanonical := Memory.wf_setBytes bytes h.outCanonical 0
  inWithin := h.inWithin
  outWithin := Memory.within_setBytes bytes h.outWithin (by omega)
  outLenFits := ((s.setCmd c).succeed_outLen_toNat hfits).trans_le hfits
  outWritten := by
    intro i hi
    rw [(s.setCmd c).succeed_outLen_toNat hfits] at hi
    rw [State.succeed_outBuf, Memory.get_setBytes, if_pos (by omega)]
    simpa using hi
  statusLegal := .inr (.inl rfl)
  fresh := fun h0 => absurd h0 statusSuccess_ne_zero

theorem Performs.inv {s t : State} {op : HostOp} (h : Performs s op t) (hs : s.Inv) : t.Inv := by
  cases h with
  | writeIn hi => exact hs.writeIn hi _
  | setInLen => exact hs.setInLen _
  | read => exact hs.answer _
  | reset => exact s.resetBlock_inv
  | failed => exact hs.failed _ _
  | succeeded hfits => exact hs.succeeded _ hfits

/-- Settles O53: each way an operation can answer keeps the invariant, a success because its result fits `OUT`. -/
theorem stepKeepsGoodStates : Obligations.StepKeepsGoodStates := by
  intro s t hs h
  rcases step_performs h with ⟨-, rfl⟩ | ⟨op, rest, -, hop⟩
  · exact hs
  · exact hop.inv (hs.issue rest)

/-- Settles O20: an operation with a good index answers a next state, one with a bad index faults. -/
theorem onlyBadIndexesStop : Obligations.OnlyBadIndexesStop := by
  intro s
  cases hp : s.pending with
  | nil => simp [step_nil hp]
  | cons op rest =>
    rw [step_cons hp]
    cases ha : s.accepts op with
    | true =>
      obtain ⟨t, ht⟩ := perform_next_of_accepts ((s.accepts_issue rest op).trans ha)
      simp [ht, ha]
    | false =>
      obtain ⟨i, hi⟩ := perform_fault_of_not_accepts ((s.accepts_issue rest op).trans ha)
      simp [hi, ha]

/-- Settles O32: both runs fail with one kind or succeed with one result. -/
theorem outcomeDependsOnlyOnTheInput : Obligations.OutcomeDependsOnlyOnTheInput := by
  intro c s1 s2 t1 t2 hcfg hlen hbytes h1 h2
  rcases hostCmd_endAlike c (SameInput.of_bytes hcfg hlen hbytes) with ⟨k, hk1, hk2⟩ | ⟨bytes, -, hb1, hb2⟩
  · obtain rfl := Host.Outcome.next.inj (hk1.symm.trans h1)
    obtain rfl := Host.Outcome.next.inj (hk2.symm.trans h2)
    exact ⟨rfl, rfl, fun h => absurd h (statusFailure_ne_statusSuccess k)⟩
  · obtain rfl := Host.Outcome.next.inj (hb1.symm.trans h1)
    obtain rfl := Host.Outcome.next.inj (hb2.symm.trans h2)
    refine ⟨rfl, rfl, fun _ => ⟨rfl, fun i hi => ?_⟩⟩
    have hi' : i < bytes.length := hi.trans_le (Nat.mod_le _ _)
    simp only [State.readOut_succeed, hi', dite_true]

/-- Settles O34: a command sets `DONE`, and no other operation than `Reset()` writes `STATUS`. -/
theorem doneStaysUntilReset : Obligations.DoneStaysUntilReset := by
  intro s t h hdone hreset
  rcases step_performs h with ⟨-, rfl⟩ | ⟨op, rest, hp, hop⟩
  · exact hdone
  · rw [hp] at hreset
    cases hop with
    | writeIn | setInLen | read => exact hdone
    | reset => exact absurd rfl hreset
    | failed => exact State.fail_done _ _
    | succeeded => exact State.succeed_done _ _

/-- Settles O35: the only operations that write `IN` or `IN_LEN` are the two host writes and `Reset()`. -/
theorem onlyTheHostChangesTheInput : Obligations.OnlyTheHostChangesTheInput := by
  intro s t h hreset
  rcases step_performs h with ⟨-, rfl⟩ | ⟨op, rest, hp, hop⟩
  · exact ⟨fun _ _ => rfl, fun _ => rfl⟩
  · rw [hp] at hreset ⊢
    cases hop with
    | writeIn => exact ⟨fun hw => absurd rfl (hw _ _), fun _ => rfl⟩
    | setInLen => exact ⟨fun _ _ => rfl, fun hn => absurd rfl (hn _)⟩
    | reset => exact absurd rfl hreset
    | read | failed | succeeded => exact ⟨fun _ _ => rfl, fun _ => rfl⟩

/-- Settles O36: the host writes and the reads leave `OUT` and the other registers alone, and nothing writes `BUF_MAX`. -/
theorem onlyCommandsChangeTheResult : Obligations.OnlyCommandsChangeTheResult := by
  intro s t h
  rcases step_performs h with ⟨-, rfl⟩ | ⟨op, rest, hp, hop⟩
  · exact ⟨rfl, fun _ _ => ⟨fun _ => rfl, rfl, rfl, rfl⟩⟩
  · rw [hp]
    cases hop with
    | writeIn | setInLen | read => exact ⟨rfl, fun _ _ => ⟨fun _ => rfl, rfl, rfl, rfl⟩⟩
    | reset => exact ⟨rfl, fun hreset => absurd rfl hreset⟩
    | failed | succeeded => exact ⟨rfl, fun _ hcmd => absurd rfl (hcmd _)⟩

/-- Settles O54: each of the legal values of `STATUS` has the fields the rules ask for. -/
theorem statusOfGoodStates : Obligations.StatusOfGoodStates := by
  intro s hs
  unfold State.statusReserved State.err State.done
  rcases hs.statusLegal with h | h | ⟨k, h⟩
  · rw [h]; decide
  · rw [h]; decide
  · rw [h]; cases k <;> decide

/-! ## Constant tables -/

/-- Settles O7: both tables, entry by entry. -/
theorem alphabetTables : Obligations.AlphabetTables :=
  ⟨rfl, rfl, by decide, by decide, by decide, by decide⟩

theorem symVal_std_letter {c : Byte} (h : 0x41 ≤ c.toNat ∧ c.toNat ≤ 0x5A) :
    symVal .std c = some (BitVec.ofNat 5 (c.toNat - 0x41)) := if_pos h

theorem symVal_std_digit {c : Byte} (h : 0x32 ≤ c.toNat ∧ c.toNat ≤ 0x37) :
    symVal .std c = some (BitVec.ofNat 5 (c.toNat - 0x32 + 26)) :=
  (if_neg (by omega)).trans (if_pos h)

theorem symVal_std_none {c : Byte} (hl : ¬ (0x41 ≤ c.toNat ∧ c.toNat ≤ 0x5A)) (hd : ¬ (0x32 ≤ c.toNat ∧ c.toNat ≤ 0x37)) :
    symVal .std c = none := (if_neg hl).trans (if_neg hd)

theorem symVal_hex_digit {c : Byte} (h : 0x30 ≤ c.toNat ∧ c.toNat ≤ 0x39) :
    symVal .hex c = some (BitVec.ofNat 5 (c.toNat - 0x30)) := if_pos h

theorem symVal_hex_letter {c : Byte} (h : 0x41 ≤ c.toNat ∧ c.toNat ≤ 0x56) :
    symVal .hex c = some (BitVec.ofNat 5 (c.toNat - 0x41 + 10)) :=
  (if_neg (by omega)).trans (if_pos h)

theorem symVal_hex_none {c : Byte} (hd : ¬ (0x30 ≤ c.toNat ∧ c.toNat ≤ 0x39)) (hl : ¬ (0x41 ≤ c.toNat ∧ c.toNat ≤ 0x56)) :
    symVal .hex c = none := (if_neg hd).trans (if_neg hl)

/-- R27: no byte beyond `Z`, so no lower-case letter and no byte from 0x80 up, is a symbol. -/
theorem symVal_none_of_high (a : Alphabet) {c : Byte} (h : 0x5B ≤ c.toNat) : symVal a c = none := by
  cases a
  · exact symVal_std_none (by omega) (by omega)
  · exact symVal_hex_none (by omega) (by omega)

/-- R27: the lookup finds every symbol of the alphabet. -/
@[simp] theorem symVal_alpha (a : Alphabet) (v : Sym) : symVal a (alpha a v) = some v := by
  cases a <;> revert v <;> decide

theorem toNat_of_symVal {a : Alphabet} {c : Byte} {v : Sym} {n : Nat} (h : symVal a c = some v)
    (hn : symVal a c = some (BitVec.ofNat 5 n)) (hlt : n < 32) : v.toNat = n := by
  obtain rfl := Option.some.inj (h.symm.trans hn)
  exact (BitVec.toNat_ofNat n 5).trans (Nat.mod_eq_of_lt hlt)

/-- R27: a value that the lookup gives is that of the byte, by the closed forms of both alphabets. -/
theorem alpha_of_symVal {a : Alphabet} {c : Byte} {v : Sym} (h : symVal a c = some v) : alpha a v = c := by
  obtain ⟨-, -, hstdLetter, hstdDigit, hhexDigit, hhexLetter⟩ := alphabetTables
  apply BitVec.eq_of_toNat_eq
  cases a with
  | std =>
    by_cases hl : 0x41 ≤ c.toNat ∧ c.toNat ≤ 0x5A
    · have hv := toNat_of_symVal h (symVal_std_letter hl) (by omega)
      have hc := hstdLetter v (by omega)
      omega
    · by_cases hd : 0x32 ≤ c.toNat ∧ c.toNat ≤ 0x37
      · have hv := toNat_of_symVal h (symVal_std_digit hd) (by omega)
        have hc := hstdDigit v (by omega)
        omega
      · cases (symVal_std_none hl hd).symm.trans h
  | hex =>
    by_cases hd : 0x30 ≤ c.toNat ∧ c.toNat ≤ 0x39
    · have hv := toNat_of_symVal h (symVal_hex_digit hd) (by omega)
      have hc := hhexDigit v (by omega)
      omega
    · by_cases hl : 0x41 ≤ c.toNat ∧ c.toNat ≤ 0x56
      · have hv := toNat_of_symVal h (symVal_hex_letter hl) (by omega)
        have hc := hhexLetter v (by omega)
        omega
      · cases (symVal_hex_none hd hl).symm.trans h

/-- R27: `SymVal` inverts `ALPHA`. -/
theorem symVal_eq_some_iff {a : Alphabet} {c : Byte} {v : Sym} : symVal a c = some v ↔ alpha a v = c :=
  ⟨alpha_of_symVal, fun h => h ▸ symVal_alpha a v⟩

/-- R12: the pad character is no symbol. -/
@[simp] theorem symVal_pad (a : Alphabet) : symVal a pad = none := by
  cases a <;> rfl

/-- Settles O8: the inverse law, then the closed forms, of which every named `none` is a case. -/
theorem symbolLookupInvertsTheAlphabet : Obligations.SymbolLookupInvertsTheAlphabet :=
  ⟨fun _ _ _ => symVal_eq_some_iff, fun _ => symVal_std_letter, fun _ => symVal_std_digit,
    fun _ h => symVal_std_none h.1 h.2, fun _ => symVal_hex_digit, fun _ => symVal_hex_letter,
    fun _ h => symVal_hex_none h.1 h.2, symVal_pad,
    fun a _ h => symVal_none_of_high a (by omega), fun a _ h => symVal_none_of_high a (by omega),
    fun _ h => symVal_hex_none (by omega) (by omega), by decide⟩

/-- Settles O9: the entries, then the equations at each row. -/
theorem partialBlockTables : Obligations.PartialBlockTables := by
  refine ⟨rfl, rfl, rfl, rfl, rfl, ?_, rfl, rfl, rfl, rfl, rfl, ?_, rfl, rfl, rfl, rfl, rfl, rfl, rfl, rfl, by decide, ?_⟩ <;>
  · intro r h1 h2
    interval_cases r <;> rfl

/-- Settles O10: each selector value names its digest. -/
theorem digestLengthTable : Obligations.DigestLengthTable := ⟨rfl, rfl, rfl, rfl⟩

/-! ## The host's operations -/

/-- R40, log 11: a word below 256 is its own command byte. -/
theorem tableByte_eight {w : Nat} (h : w < 256) : tableByte 8 w = BitVec.ofNat 8 w :=
  congrArg (BitVec.ofNat 8) (Nat.mod_eq_of_lt h)

theorem decodeTableWord_eq_some_iff {nbits w : Nat} {i : Instr} :
    decodeTableWord nbits w = some i ↔ decode (tableByte nbits w) = .ok i := by
  unfold decodeTableWord
  cases decode (tableByte nbits w) <;> simp

/-- Settles O15: the placed byte is the next operation, and it decodes as the word does. -/
theorem placedWordRunsNext : Obligations.PlacedWordRunsNext := by
  intro s w i hw hi
  have hdec : decode (BitVec.ofNat 8 w) = .ok i := tableByte_eight hw ▸ decodeTableWord_eq_some_iff.1 hi
  calc step (s.withFetchWord 8 w)
      = hostCmd (tableByte 8 w) ((s.withFetchWord 8 w).issue s.pending) := step_cons (State.enqueueFirst_pending s _)
    _ = exec i (((s.withFetchWord 8 w).issue s.pending).setCmd (BitVec.ofNat 8 w)) := by
      rw [tableByte_eight hw, hostCmd_of_ok hdec]

/-- Settles O17: the state after each host write is a named update, read field by field. -/
theorem hostWritesTakeEffect : Obligations.HostWritesTakeEffect := by
  constructor
  · intro s i v rest hp hi
    have hstep : step s = .next ((s.issue rest).writeIn i v) :=
      (step_cons hp).trans (perform_writeIn_of_lt (s := s.issue rest) hi v)
    refine ⟨_, hstep, ?_, fun j hj => ?_, rfl, rfl, rfl, rfl, rfl, rfl, fun _ => rfl, rfl, rfl⟩
    · rw [State.readIn_writeIn, if_pos rfl]
    · rw [State.readIn_writeIn, if_neg hj]
      rfl
  · intro s n rest hp
    exact step_cons hp

/-- R34: a read writes none of the block's state, whatever it returns. -/
theorem blockUnchanged_answer (s : State) (rest : List HostOp) (r : Reply) : BlockUnchanged s ((s.issue rest).answer r) :=
  ⟨rfl, rfl, rfl, rfl, rfl, rfl, rfl, rfl, fun _ => rfl, fun _ => rfl⟩

/-- A step that answers a read's reply holds it and changes nothing else of the block. -/
theorem step_answers {s : State} {rest : List HostOp} {r : Reply} (h : step s = .next ((s.issue rest).answer r)) :
    ∃ t, step s = .next t ∧ t.reply = some r ∧ BlockUnchanged s t ∧ t.pending = rest :=
  ⟨_, h, rfl, blockUnchanged_answer s rest r, rfl⟩

/-- Settles O18: each of the six reads answers its reply; those of a buffer by their index check. -/
theorem hostReadsReturnAndChangeNothing : Obligations.HostReadsReturnAndChangeNothing := by
  intro s op rest hp
  have hstep := step_cons hp
  refine ⟨?_, ?_, ?_, ?_, ?_, ?_⟩
  · rintro i rfl hi
    exact step_answers (hstep.trans (perform_readIn_of_lt hi))
  · rintro i rfl hi
    exact step_answers (hstep.trans (perform_readOut_of_lt hi))
  all_goals
    rintro rfl
    exact step_answers hstep

end Sys2Proof.Machine

namespace Sys2Proof.Machine

/-! ## The canonical form of a buffer

A buffer in canonical form is determined by what it reads, so two updates that read alike are one (log 9). -/

/-- In a buffer in canonical form every listed byte is the one read: no later entry repeats an index. -/
theorem Memory.get_eq_some_iff {m : Memory} (h : m.wf) {i : Nat} {v : Byte} : m.get i = some v ↔ (i, v) ∈ m := by
  induction m with
  | nil => simp
  | cons cell rest ih =>
    obtain ⟨j, w⟩ := cell
    obtain ⟨hlt, hrest⟩ := List.pairwise_cons.1 h
    rw [Memory.get_cons, List.mem_cons, Prod.mk.injEq]
    by_cases hij : i = j
    · subst hij
      have hnot : (i, v) ∉ rest := fun hmem => Nat.lt_irrefl i (hlt _ hmem)
      simp [hnot, eq_comm]
    · simp [hij, ih hrest]

theorem Memory.ext_get {m n : Memory} (hm : m.wf) (hn : n.wf) (h : ∀ i, m.get i = n.get i) : m = n := by
  have hasymm : Std.Asymm fun x y : Host.Cell => x.1 < y.1 := ⟨fun _ _ => Nat.lt_asymm⟩
  refine List.Pairwise.eq_of_mem_iff hm hn fun ⟨i, v⟩ => ?_
  rw [← Memory.get_eq_some_iff hm, ← Memory.get_eq_some_iff hn, h]

/-- Settles O55: the cells of both are the bytes read, in rising order of their index. -/
theorem equalBuffersAreEqualData : Obligations.EqualBuffersAreEqualData :=
  fun _ _ => Memory.ext_get

/-- Writing a run of bytes a second time changes nothing. -/
theorem Memory.setBytes_setBytes_same {m : Memory} (h : m.wf) (a : Nat) (vs : List Byte) :
    (m.setBytes a vs).setBytes a vs = m.setBytes a vs := by
  have hwf : (m.setBytes a vs).wf := Memory.wf_setBytes vs h a
  refine Memory.ext_get (Memory.wf_setBytes vs hwf a) hwf fun i => ?_
  simp only [Memory.get_setBytes]
  split <;> rfl

/-! ## What a command leaves -/

theorem State.succeed_succeed_same {s : State} (h : s.outBuf.wf) (bytes : List Byte) :
    (s.succeed bytes).succeed bytes = s.succeed bytes := by
  simp only [State.succeed, Memory.setBytes_setBytes_same h]

/-- R34: no command writes `BUF_MAX`, `IN_LEN` or `IN`, all it may read. -/
theorem hostCmd_sameInput {c : Byte} {s t : State} (h : hostCmd c s = .next t) : SameInput s t := by
  rcases hostCmd_ends c s with ⟨k, hk⟩ | ⟨bytes, hb⟩
  · obtain rfl := Host.Outcome.next.inj (hk.symm.trans h)
    exact ⟨rfl, rfl, rfl⟩
  · obtain rfl := Host.Outcome.next.inj (hb.symm.trans h)
    exact ⟨rfl, rfl, rfl⟩

/-- Settles O33: the second run ends as the first did, and writes what stands there already. -/
theorem commandIsIdempotent : Obligations.CommandIsIdempotent := by
  intro c s t u hwf ht hu
  rcases hostCmd_endAlike c (hostCmd_sameInput ht) with ⟨k, hs, hagain⟩ | ⟨bytes, -, hs, hagain⟩
  · obtain rfl := Host.Outcome.next.inj (hs.symm.trans ht)
    obtain rfl := Host.Outcome.next.inj (hagain.symm.trans hu)
    rfl
  · obtain rfl := Host.Outcome.next.inj (hs.symm.trans ht)
    obtain rfl := Host.Outcome.next.inj (hagain.symm.trans hu)
    exact State.succeed_succeed_same (s := s.setCmd c) hwf bytes

theorem commandFrame_succeed (s : State) (bytes : List Byte) : CommandFrame s (s.succeed bytes) :=
  ⟨rfl, rfl, rfl, rfl, rfl, rfl, rfl, fun _ => rfl⟩

/-- R20: a success writes every byte of its result. -/
theorem State.succeed_written (s : State) {bytes : List Byte} {j : Nat} (h : j < bytes.length) :
    ((s.succeed bytes).outBuf.get j).isSome = true := by
  rw [State.succeed_outBuf, Memory.get_setBytes, if_pos (by omega)]
  simpa using h

/-- Settles O30: the status is that of a success, whose result fits `OUT`. -/
theorem successfulCommandFrame : Obligations.SuccessfulCommandFrame := by
  intro i s t h hstatus
  rcases exec_endAlike i (SameInput.refl s) with ⟨k, hk, -⟩ | ⟨bytes, hfits, hb, -⟩
  · obtain rfl := Host.Outcome.next.inj (hk.symm.trans h)
    exact absurd hstatus (statusFailure_ne_statusSuccess k)
  · obtain rfl := Host.Outcome.next.inj (hb.symm.trans h)
    rw [State.succeed_outLen_toNat s hfits]
    refine ⟨commandFrame_succeed s bytes, fun j hj => ?_, hfits, fun j hj => s.succeed_written hj⟩
    rw [State.readOut_succeed, dif_neg (Nat.not_lt.2 hj)]

end Sys2Proof.Machine

namespace Sys2Proof

open Machine

/-! ## The fields of a command byte

A byte is its fields put together, in the layout of the Base32 commands (R42) and in that of `HOTPTRUNC` (R44). -/

@[simp] theorem unitField_toNat (c : Byte) : (unitField c).toNat = c.toNat / 64 := by
  rw [unitField, Laws.field_toNat]; omega

@[simp] theorem zeroField_toNat (c : Byte) : (zeroField c).toNat = c.toNat / 2 % 32 := Laws.field_toNat c 1 5

@[simp] theorem alphabetField_toNat (c : Byte) : (alphabetField c).toNat = c.toNat % 2 := by
  rw [alphabetField, Laws.field_toNat]; omega

@[simp] theorem dselField_toNat (c : Byte) : (dselField c).toNat = c.toNat / 16 % 4 := Laws.field_toNat c 4 2

@[simp] theorem digitsField_toNat (c : Byte) : (digitsField c).toNat = c.toNat % 16 := by
  rw [digitsField, Laws.field_toNat]; omega

/-- R42: the layout `UNIT ZERO A`. -/
theorem base32Layout_eq_iff {u : BitVec 2} {z : BitVec 5} {a : BitVec 1} {c : Byte} :
    u ++ z ++ a = c ↔ unitField c = u ∧ zeroField c = z ∧ alphabetField c = a := by
  simp only [← BitVec.toNat_inj, Laws.append_toNat, unitField_toNat, zeroField_toNat, alphabetField_toNat]
  omega

/-- R44: the layout `UNIT DSEL DIGITS`. -/
theorem hotpLayout_eq_iff {u d : BitVec 2} {n : BitVec 4} {c : Byte} :
    u ++ d ++ n = c ↔ unitField c = u ∧ dselField c = d ∧ digitsField c = n := by
  simp only [← BitVec.toNat_inj, Laws.append_toNat, unitField_toNat, dselField_toNat, digitsField_toNat]
  omega

theorem encode_b32enc_eq_iff {a : Alphabet} {c : Byte} :
    encode (.b32enc a) = c ↔ unitField c = 0#2 ∧ zeroField c = 0#5 ∧ alphabetField c = a.bit := base32Layout_eq_iff

theorem encode_b32dec_eq_iff {a : Alphabet} {c : Byte} :
    encode (.b32dec a) = c ↔ unitField c = 1#2 ∧ zeroField c = 0#5 ∧ alphabetField c = a.bit := base32Layout_eq_iff

theorem encode_hotptrunc_eq_iff {d : DigestSel} {digits : Nat} {c : Byte} :
    encode (.hotptrunc d digits) = c ↔
      unitField c = 2#2 ∧ dselField c = d.bits ∧ digitsField c = BitVec.ofNat 4 digits := hotpLayout_eq_iff

/-! ## The selectors and their bits -/

@[simp] theorem alphabetOf_bit (a : Alphabet) : alphabetOf a.bit = a := by cases a <;> rfl

@[simp] theorem bit_alphabetOf (b : BitVec 1) : (alphabetOf b).bit = b := by revert b; decide

@[simp] theorem dselOf_bits (d : DigestSel) : dselOf d.bits = d := by cases d <;> rfl

@[simp] theorem bits_dselOf (b : BitVec 2) : (dselOf b).bits = b := by revert b; decide

/-- R40: 3 is the reserved value of `DSEL`. -/
theorem dselOf_eq_reserved_iff {b : BitVec 2} : dselOf b = .reserved ↔ b.toNat = 3 := by revert b; decide

/-! ## Decoding -/

/-- Settles O1: the fields of an encoded command are the ones it was put together from. -/
theorem decodeAfterEncode : Obligations.DecodeAfterEncode := by
  intro i hwf
  cases i with
  | b32enc a =>
    obtain ⟨hu, hz, ha⟩ := encode_b32enc_eq_iff.1 (Eq.refl (encode (.b32enc a)))
    simp [decode, hu, hz, ha]
  | b32dec a =>
    obtain ⟨hu, hz, ha⟩ := encode_b32dec_eq_iff.1 (Eq.refl (encode (.b32dec a)))
    simp [decode, hu, hz, ha]
  | hotptrunc d digits =>
    obtain ⟨hu, hd, hn⟩ := encode_hotptrunc_eq_iff.1 (Eq.refl (encode (.hotptrunc d digits)))
    have hfits : digits < 16 := of_decide_eq_true hwf
    simp [decode, hu, hd, hn, Nat.mod_eq_of_lt hfits]

/-- The bytes with `ZERO = 0` of a given `UNIT`. -/
theorem unitZeroFields_iff {c : Byte} {u : BitVec 2} :
    unitField c = u ∧ zeroField c = 0#5 ↔ 64 * u.toNat ≤ c.toNat ∧ c.toNat ≤ 64 * u.toNat + 1 := by
  simp only [← BitVec.toNat_inj, unitField_toNat, zeroField_toNat, BitVec.toNat_ofNat, Nat.reducePow, Nat.reduceMod]
  omega

/-- The bytes of a given `UNIT`. -/
theorem unitField_eq_iff {c : Byte} {u : BitVec 2} :
    unitField c = u ↔ 64 * u.toNat ≤ c.toNat ∧ c.toNat ≤ 64 * u.toNat + 63 := by
  simp only [← BitVec.toNat_inj, unitField_toNat]
  omega

/-- Everything the decoder can answer, and the bytes it answers it for (R45, R47). -/
theorem decode_cases (c : Byte) :
    (c.toNat ≤ 0x01 ∧ decode c = .ok (.b32enc (alphabetOf (alphabetField c)))) ∨
    ((0x40 ≤ c.toNat ∧ c.toNat ≤ 0x41) ∧ decode c = .ok (.b32dec (alphabetOf (alphabetField c)))) ∨
    ((0x80 ≤ c.toNat ∧ c.toNat ≤ 0xBF) ∧ decode c = .ok (.hotptrunc (dselOf (dselField c)) (digitsField c).toNat)) ∨
    (reservedByte c ∧ ∃ e, decode c = .error e) := by
  unfold decode reservedByte
  simp only [← BitVec.toNat_inj, unitField_toNat, zeroField_toNat, BitVec.toNat_ofNat, Nat.reducePow, Nat.reduceMod]
  split
  · split
    · exact .inl ⟨by omega, rfl⟩
    · exact .inr (.inr (.inr ⟨by omega, _, rfl⟩))
  · split
    · split
      · exact .inr (.inl ⟨by omega, rfl⟩)
      · exact .inr (.inr (.inr ⟨by omega, _, rfl⟩))
    · split
      · exact .inr (.inr (.inl ⟨by omega, rfl⟩))
      · exact .inr (.inr (.inr ⟨by omega, _, rfl⟩))

/-- Settles O2: the decoder reads the fields of the byte, and the encoder puts the same fields together again. -/
theorem encodeAfterDecode : Obligations.EncodeAfterDecode := by
  intro c i h
  rcases decode_cases c with ⟨hc, hd⟩ | ⟨hc, hd⟩ | ⟨hc, hd⟩ | ⟨-, e, hd⟩
  · obtain rfl := Except.ok.inj (hd.symm.trans h)
    obtain ⟨hu, hz⟩ := (unitZeroFields_iff (u := 0#2)).2 ⟨Nat.zero_le _, hc⟩
    exact ⟨rfl, encode_b32enc_eq_iff.2 ⟨hu, hz, (bit_alphabetOf _).symm⟩⟩
  · obtain rfl := Except.ok.inj (hd.symm.trans h)
    obtain ⟨hu, hz⟩ := (unitZeroFields_iff (u := 1#2)).2 hc
    exact ⟨rfl, encode_b32dec_eq_iff.2 ⟨hu, hz, (bit_alphabetOf _).symm⟩⟩
  · obtain rfl := Except.ok.inj (hd.symm.trans h)
    refine ⟨decide_eq_true (digitsField c).isLt, encode_hotptrunc_eq_iff.2 ⟨unitField_eq_iff.2 hc, (bits_dselOf _).symm, ?_⟩⟩
    rw [BitVec.ofNat_toNat, BitVec.setWidth_eq]
  · cases hd.symm.trans h

/-- Settles O3: the decoder and the spelling evaluated at the listed bytes, each digest at its sixteen digit counts. -/
theorem spellingsHaveTheirBytes : Obligations.SpellingsHaveTheirBytes :=
  ⟨rfl, rfl, rfl, rfl, by decide, by decide, by decide, rfl, rfl, rfl, rfl, rfl, rfl, rfl⟩

/-- Settles O4: the ranges of the decoder's commands are disjoint from the reserved ones. -/
theorem reservedBytesDoNotDecode : Obligations.ReservedBytesDoNotDecode := by
  intro c
  rcases decode_cases c with ⟨hc, hd⟩ | ⟨hc, hd⟩ | ⟨hc, hd⟩ | ⟨hc, he⟩
  · simp [hd]; omega
  · simp [hd]; omega
  · simp [hd]; omega
  · exact iff_of_true he hc

/-! ## The rows of the opcode table -/

/-- A mask of all bits but the `n` low ones compares the bits above them. -/
theorem OpcodeRow.selects_iff {row : OpcodeRow} {n : Nat} (hmask : row.mask = BitVec.allOnes 8 <<< n) (c : Byte) :
    row.selects c = true ↔ c.toNat / 2 ^ n * 2 ^ n = row.pattern.toNat := by
  have hle : c.toNat / 2 ^ n * 2 ^ n < 2 ^ 8 := (Nat.div_mul_le_self _ _).trans_lt c.isLt
  rw [OpcodeRow.selects, beq_iff_eq, hmask, ← BitVec.shiftLeft_ushiftRight, ← BitVec.toNat_inj, BitVec.toNat_shiftLeft,
    BitVec.toNat_ushiftRight, Nat.shiftLeft_eq, Nat.shiftRight_eq_div_pow, Nat.mod_eq_of_lt hle]

theorem rowB32enc_selects_iff {c : Byte} : rowB32enc.selects c = true ↔ c.toNat ≤ 0x01 :=
  (rowB32enc.selects_iff (n := 1) rfl c).trans (show c.toNat / 2 * 2 = 0x00 ↔ _ by omega)

theorem rowB32dec_selects_iff {c : Byte} : rowB32dec.selects c = true ↔ 0x40 ≤ c.toNat ∧ c.toNat ≤ 0x41 :=
  (rowB32dec.selects_iff (n := 1) rfl c).trans (show c.toNat / 2 * 2 = 0x40 ↔ _ by omega)

theorem rowHotptrunc_selects_iff {c : Byte} : rowHotptrunc.selects c = true ↔ 0x80 ≤ c.toNat ∧ c.toNat ≤ 0xBF :=
  (rowHotptrunc.selects_iff (n := 6) rfl c).trans (show c.toNat / 64 * 64 = 0x80 ↔ _ by omega)

/-- Settles O5: each row selects the range of bytes that decode to its command, and the ranges are disjoint. -/
theorem opcodeRowsPartitionTheCommands : Obligations.OpcodeRowsPartitionTheCommands := by
  intro c
  simp only [← Bool.not_eq_true, Bool.and_eq_true, rowB32enc_selects_iff, rowB32dec_selects_iff, rowHotptrunc_selects_iff]
  rcases decode_cases c with ⟨hc, hd⟩ | ⟨hc, hd⟩ | ⟨hc, hd⟩ | ⟨hc, e, hd⟩
  · simp [hd]; omega
  · simp [hd]; omega
  · simp [hd]; omega
  · simp [hd]; omega

/-! ## Steps that run a command -/

theorem step_cmd {s : State} {c : Byte} {rest : List HostOp} (h : s.pending = .cmd c :: rest) :
    step s = hostCmd c (s.issue rest) := step_cons h

/-- Settles O14: the step is `HostCmd` of the byte, which runs what it decodes to. -/
theorem stepRunsTheDecodedCommand : Obligations.StepRunsTheDecodedCommand :=
  fun s _ rest _ hp hd => (step_cmd hp).trans (hostCmd_of_ok hd (s.issue rest))

/-- Settles O16: a reserved byte does not decode, and `0x80 | code(IllegalCommand)` is 0x84. -/
theorem stepOnReservedByte : Obligations.StepOnReservedByte := by
  intro s c rest hp hc
  obtain ⟨e, he⟩ := (reservedBytesDoNotDecode c).2 hc
  exact (step_cmd hp).trans (hostCmd_of_error he (s.issue rest))

/-! ## The commands that can succeed -/

/-- What a command needs to succeed on some input: no check of R75 on its operands fails. -/
def Instr.CanSucceed : Instr → Prop
  | .b32enc _ => True
  | .b32dec _ => True
  | .hotptrunc dsel digits => dsel ≠ .reserved ∧ 1 ≤ digits ∧ digits ≤ 9

theorem Machine.State.input_eq_nil {s : State} (h : s.inLen = 0#16) : s.input = [] := by
  simp [State.input, h]

theorem exec_b32enc_empty (a : Alphabet) {s : State} (h : s.inLen = 0#16) : exec (.b32enc a) s = .next (s.succeed []) := by
  show execB32enc a s = _
  rw [execB32enc_eq, h, State.input_eq_nil h]
  rfl

theorem exec_b32dec_empty (a : Alphabet) {s : State} (h : s.inLen = 0#16) : exec (.b32dec a) s = .next (s.succeed []) := by
  show execB32dec a s = _
  rw [execB32dec_eq, h, State.input_eq_nil h]
  rfl

/-- R17: every selector but the reserved one has a digest length. -/
theorem exists_dlen {dsel : DigestSel} (h : dsel ≠ .reserved) : ∃ n : Length, dlen dsel = some n.toNat := by
  cases dsel with
  | sha1 => exact ⟨20#16, rfl⟩
  | sha256 => exact ⟨32#16, rfl⟩
  | sha512 => exact ⟨64#16, rfl⟩
  | reserved => exact absurd rfl h

/-- R75, R76: with every check passed the truncation succeeds. -/
theorem exec_hotptrunc_succeeds {dsel : DigestSel} {digits n : Nat} {s : State} (hn : dlen dsel = some n)
    (h1 : 1 ≤ digits) (h9 : digits ≤ 9) (hlen : s.inLen.toNat = n) :
    exec (.hotptrunc dsel digits) s = .next (s.succeed (trunc s.input digits)) := by
  show execHotptrunc dsel digits s = _
  rw [execHotptrunc_eq, hn]
  dsimp only
  rw [if_neg (by omega), if_neg (not_not.2 hlen)]

/-- R47: a command that passes the checks on its operands succeeds on every input of some length. -/
theorem Instr.CanSucceed.exists_input {i : Instr} (h : i.CanSucceed) :
    ∃ n : Length, ∀ s : State, s.inLen = n → ∃ bytes, exec i s = .next (s.succeed bytes) := by
  cases i with
  | b32enc a => exact ⟨0#16, fun s hs => ⟨[], exec_b32enc_empty a hs⟩⟩
  | b32dec a => exact ⟨0#16, fun s hs => ⟨[], exec_b32dec_empty a hs⟩⟩
  | hotptrunc dsel digits =>
    obtain ⟨hdsel, h1, h9⟩ := h
    obtain ⟨n, hn⟩ := exists_dlen hdsel
    exact ⟨n, fun s hs => ⟨_, exec_hotptrunc_succeeds hn h1 h9 (congrArg BitVec.toNat hs)⟩⟩

/-- R75: a reserved selector or a bad digit count fails on every input. -/
theorem exec_hotptrunc_fails {dsel : DigestSel} {digits : Nat} (h : ¬ (Instr.hotptrunc dsel digits).CanSucceed) (s : State) :
    ∃ k, exec (.hotptrunc dsel digits) s = .next (s.fail k) := by
  show ∃ k, execHotptrunc dsel digits s = _
  rw [execHotptrunc_eq]
  cases hn : dlen dsel with
  | none => exact ⟨_, rfl⟩
  | some n =>
    have hdsel : dsel ≠ .reserved := by rintro rfl; cases hn
    have hdigits : digits < 1 ∨ 9 < digits := by
      by_contra hlegal
      exact h ⟨hdsel, by omega⟩
    exact ⟨_, congrArg Host.Outcome.next (if_pos hdigits)⟩

theorem canSucceed_of_exec {i : Instr} {s t : State} (h : exec i s = .next t) (hstatus : t.status = statusSuccess) :
    i.CanSucceed := by
  cases i with
  | b32enc | b32dec => trivial
  | hotptrunc dsel digits =>
    by_contra hcan
    obtain ⟨k, hk⟩ := exec_hotptrunc_fails hcan s
    obtain rfl := Host.Outcome.next.inj (hk.symm.trans h)
    exact statusFailure_ne_statusSuccess k hstatus

/-- A byte can succeed when it decodes to a command that can. -/
theorem hostCmd_succeeds_iff {c : Byte} :
    (∃ s t, hostCmd c s = .next t ∧ t.status = statusSuccess) ↔ ∃ i, decode c = .ok i ∧ i.CanSucceed := by
  constructor
  · rintro ⟨s, t, h, hstatus⟩
    rcases hostCmd_cases c s with ⟨e, -, he⟩ | ⟨i, hd, hi⟩
    · obtain rfl := Host.Outcome.next.inj (he.symm.trans h)
      exact absurd hstatus (statusFailure_ne_statusSuccess _)
    · exact ⟨i, hd, canSucceed_of_exec (hi.symm.trans h) hstatus⟩
  · rintro ⟨i, hd, hcan⟩
    obtain ⟨n, hn⟩ := hcan.exists_input
    obtain ⟨bytes, hb⟩ := hn ((State.reset.setInLen n).setCmd c) rfl
    exact ⟨State.reset.setInLen n, _, (hostCmd_of_ok hd _).trans hb, rfl⟩

theorem canSucceed_hotptrunc_fields_iff {c : Byte} (hc : 0x80 ≤ c.toNat ∧ c.toNat ≤ 0xBF) :
    (Instr.hotptrunc (dselOf (dselField c)) (digitsField c).toNat).CanSucceed ↔
      c.toNat ≤ 0xAF ∧ 1 ≤ c.toNat % 16 ∧ c.toNat % 16 ≤ 9 := by
  rw [Instr.CanSucceed, ne_eq, dselOf_eq_reserved_iff, dselField_toNat, digitsField_toNat]
  omega

/-- Settles O6: the bytes that decode, less the truncations whose operands fail a check. -/
theorem bytesThatCanSucceed : Obligations.BytesThatCanSucceed := by
  intro c
  refine hostCmd_succeeds_iff.trans ?_
  simp only [← BitVec.toNat_inj, BitVec.toNat_ofNat, Nat.reducePow, Nat.reduceMod]
  rcases decode_cases c with ⟨hc, hd⟩ | ⟨hc, hd⟩ | ⟨hc, hd⟩ | ⟨hc, e, hd⟩
  · exact iff_of_true ⟨_, hd, trivial⟩ (by omega)
  · exact iff_of_true ⟨_, hd, trivial⟩ (by omega)
  · simp only [hd, Except.ok.injEq, exists_eq_left', canSucceed_hotptrunc_fields_iff hc]
    omega
  · refine iff_of_false (fun ⟨i, hi, _⟩ => ?_) (by unfold reservedByte at hc; omega)
    cases hd.symm.trans hi

end Sys2Proof

namespace Sys2Proof.Machine

/-! ## The symbols of a block -/

/-- R50: `V` as a sum, each byte at its place. -/
theorem blockWord_toNat (blk : List Byte) :
    (blockWord blk).toNat =
      (blk.getD 0 0#8).toNat * 2 ^ 32 + (blk.getD 1 0#8).toNat * 2 ^ 24 + (blk.getD 2 0#8).toNat * 2 ^ 16 +
      (blk.getD 3 0#8).toNat * 2 ^ 8 + (blk.getD 4 0#8).toNat := by
  simp only [blockWord, Laws.append_toNat]
  omega

theorem encSym_toNat (blk : List Byte) (j : Nat) :
    (encSym blk j).toNat = (blockWord blk).toNat / 2 ^ (35 - 5 * j) % 2 ^ 5 :=
  Laws.field_toNat (blockWord blk) (35 - 5 * j) 5

/-- Settles O37: both sides of each row of the table are one number of the block's bytes. -/
theorem encodeSymbolFields : Obligations.EncodeSymbolFields := by
  intro blk _ _
  have h0 := (blk.getD 0 0#8).isLt
  have h1 := (blk.getD 1 0#8).isLt
  have h2 := (blk.getD 2 0#8).isLt
  have h3 := (blk.getD 3 0#8).isLt
  have h4 := (blk.getD 4 0#8).isLt
  refine ⟨blockWord_toNat blk, fun j _ => encSym_toNat blk j, ?_, ?_, ?_, ?_, ?_, ?_, ?_, ?_⟩
  all_goals
    apply BitVec.eq_of_toNat_eq
    simp only [encSym_toNat, blockWord_toNat, Laws.append_toNat, Laws.field_toNat]
    omega

/-! ## Symbols first, then pads -/

/-- Settles O38: the text has no character. -/
theorem encodeOfNothingIsNothing : Obligations.EncodeOfNothingIsNothing := fun _ => rfl

/-- R12: no symbol of an alphabet is the pad character, for which the lookup gives none. -/
theorem alpha_ne_pad (a : Alphabet) (v : Sym) : alpha a v ≠ pad := by
  intro h
  cases (symVal_alpha a v).symm.trans (h ▸ symVal_pad a)

/-- The symbols of a block that its text shows: the first `SYMCOUNT[r]` (R51). -/
def shownSyms (blk : List Byte) : List Sym := (List.range (symCount blk.length)).map (encSym blk)

@[simp] theorem shownSyms_length (blk : List Byte) : (shownSyms blk).length = symCount blk.length := by
  simp [shownSyms]

theorem symCount_le (r : Nat) : symCount r ≤ 8 := by
  unfold symCount
  split <;> decide

/-- R51: the text of a block is its symbols and then pads. -/
theorem encBlock_eq_append (a : Alphabet) (blk : List Byte) :
    encBlock a blk = (shownSyms blk).map (alpha a) ++ List.replicate (8 - symCount blk.length) pad := by
  have hm := symCount_le blk.length
  apply List.ext_getElem
  · simp only [encBlock_length, List.length_append, List.length_map, shownSyms_length, List.length_replicate]
    omega
  · intro j _ _
    by_cases hj : j < symCount blk.length
    · simp [encBlock, shownSyms, hj]
    · rw [List.getElem_append_right (by simpa using hj)]
      simp [encBlock, hj]

/-- R14: `PADCOUNT` fills a partial block. -/
theorem padCount_eq {r : Nat} (h1 : 1 ≤ r) (h4 : r ≤ 4) : padCount r = 8 - symCount r := by
  interval_cases r <;> rfl

/-- R53: full blocks give symbols alone, so the only pads are those of the final partial block. -/
theorem enc_eq_append (a : Alphabet) (b : List Byte) :
    ∃ vs : List Sym, vs.length = 8 * (b.length / 5) + symCount (b.length % 5) ∧
      enc a b = vs.map (alpha a) ++ List.replicate (padCount (b.length % 5)) pad := by
  induction b using blocks_induction with
  | nothing => exact ⟨[], rfl, rfl⟩
  | part b h1 h4 =>
    rw [Nat.mod_eq_of_lt (by omega), Nat.div_eq_of_lt (by omega), enc_partial a b h1 h4, padCount_eq h1 h4]
    exact ⟨shownSyms b, by simp, encBlock_eq_append a b⟩
  | full b0 b1 b2 b3 b4 rest ih =>
    obtain ⟨vs, hlen, henc⟩ := ih
    have hdiv : (rest.length + 5) / 5 = rest.length / 5 + 1 := Nat.add_div_right _ (by decide)
    have hfull : (shownSyms [b0, b1, b2, b3, b4]).length = 8 := shownSyms_length _
    have hblock : encBlock a [b0, b1, b2, b3, b4] = (shownSyms [b0, b1, b2, b3, b4]).map (alpha a) :=
      (encBlock_eq_append a _).trans (List.append_nil _)
    simp only [List.length_cons, Nat.add_assoc, Nat.reduceAdd, Nat.add_mod_right, hdiv]
    refine ⟨shownSyms [b0, b1, b2, b3, b4] ++ vs, ?_, ?_⟩
    · rw [List.length_append, hfull, hlen]
      omega
    · rw [enc_full, hblock, henc, List.map_append, List.append_assoc]

/-- Settles O39: the pads counted are the ones at the end, since no symbol is a pad. -/
theorem encodePaddingLaw : Obligations.EncodePaddingLaw := by
  intro a b
  obtain ⟨vs, hlen, henc⟩ := enc_eq_append a b
  have hsyms : (vs.map (alpha a)).count pad = 0 :=
    List.count_eq_zero.2 fun h => by
      obtain ⟨v, -, hv⟩ := List.mem_map.1 h
      exact alpha_ne_pad a v hv
  refine ⟨enc_length a b, ?_, vs, hlen, henc⟩
  calc (enc a b).count pad
      = (vs.map (alpha a)).count pad + (List.replicate (padCount (b.length % 5)) pad).count pad := by
        rw [henc, List.count_append]
    _ = padCount (b.length % 5) := by rw [hsyms, List.count_replicate_self, Nat.zero_add]

/-! ## The text of the command, character by character -/

/-- Block `k` of a message: up to five bytes (R52). -/
def messageBlock (b : List Byte) (k : Nat) : List Byte := (b.drop (5 * k)).take 5

theorem messageBlock_length (b : List Byte) (k : Nat) : (messageBlock b k).length = min 5 (b.length - 5 * k) := by
  simp [messageBlock]

theorem messageBlock_getD (b : List Byte) (k : Nat) {i : Nat} (hi : i < 5) :
    (messageBlock b k).getD i 0#8 = b.getD (5 * k + i) 0#8 := by
  simp [messageBlock, List.getD_eq_getElem?_getD, hi]

/-- R52: characters `8k` to `8k+7` of the text are those of block `k`. -/
theorem enc_getD (a : Alphabet) (b : List Byte) {k j : Nat} (hk : 5 * k < b.length) (hj : j < 8) :
    (enc a b).getD (8 * k + j) 0#8 = (encBlock a (messageBlock b k)).getD j 0#8 := by
  induction b using blocks_induction generalizing k with
  | nothing => cases hk
  | part b h1 h4 =>
    obtain rfl : k = 0 := by omega
    rw [enc_partial a b h1 h4, Nat.mul_zero, Nat.zero_add, messageBlock, Nat.mul_zero, List.drop_zero,
      List.take_of_length_le (by omega)]
  | full b0 b1 b2 b3 b4 rest ih =>
    rw [enc_full]
    cases k with
    | zero =>
      rw [Nat.mul_zero, Nat.zero_add, List.getD_append _ _ _ _ (by rwa [encBlock_length])]
      rfl
    | succ k =>
      simp only [List.length_cons] at hk
      have hi : 8 * (k + 1) + j - 8 = 8 * k + j := by omega
      rw [List.getD_append_right _ _ _ _ (by rw [encBlock_length]; omega), encBlock_length, hi, ih (by omega)]
      rfl

/-- R50: byte `i` of input block `k` as a number, missing bytes zero. -/
theorem inNumber_eq (s : State) (k : Nat) {i : Nat} (hi : i < 5) :
    inNumber s (5 * k + i) = ((messageBlock s.input k).getD i 0#8).toNat := by
  rw [messageBlock_getD _ _ hi, inNumber]
  split
  · next h => rw [State.input_getD s h]
  · next h => rw [List.getD_eq_default _ _ (by rw [State.input_length]; omega)]; rfl

theorem blockNumber_eq (s : State) (k : Nat) : blockNumber s k = (blockWord (messageBlock s.input k)).toNat := by
  have h0 : inNumber s (5 * k) = _ := inNumber_eq s k (i := 0) (by decide)
  rw [blockWord_toNat, blockNumber, h0, inNumber_eq s k (i := 1) (by decide), inNumber_eq s k (i := 2) (by decide),
    inNumber_eq s k (i := 3) (by decide), inNumber_eq s k (i := 4) (by decide)]

/-- R50: the field of the block's number is the encoder's symbol. -/
theorem blockSymbol_eq (s : State) (k j : Nat) : blockSymbol s k j = encSym (messageBlock s.input k) j := by
  rw [blockSymbol, blockNumber_eq, ← encSym_toNat, BitVec.ofNat_toNat, BitVec.setWidth_eq]

/-- R55: with room for the text the encoder succeeds with it. -/
theorem exec_b32enc_of_fits (a : Alphabet) {s : State} (h : encodedLength s.inLen.toNat ≤ s.cfg.bufMax) :
    exec (.b32enc a) s = .next (s.succeed (enc a s.input)) := by
  show execB32enc a s = _
  rw [execB32enc_eq, if_neg (Nat.not_lt.2 h)]

theorem State.readOut_succeed_of_lt (s : State) {bytes : List Byte} {i : Nat} (h : i < bytes.length) :
    (s.succeed bytes).readOut i = bytes.getD i 0#8 := by
  rw [State.readOut_succeed, dif_pos h, List.getD_eq_getElem _ _ h]

theorem State.readOut_succeed_of_le (s : State) {bytes : List Byte} {i : Nat} (h : bytes.length ≤ i) :
    (s.succeed bytes).readOut i = s.readOut i := by
  rw [State.readOut_succeed, dif_neg (Nat.not_lt.2 h)]

/-- Settles O22: the success writes the text, whose characters are read off block by block. -/
theorem encodeCommandWritesTheText : Obligations.EncodeCommandWritesTheText := by
  intro a s hfits
  have htext : (enc a s.input).length = encodedLength s.inLen.toNat := by rw [enc_length, State.input_length]
  have hout : (s.succeed (enc a s.input)).outLen.toNat = (enc a s.input).length :=
    s.succeed_outLen_toNat (htext.trans_le hfits)
  refine ⟨_, exec_b32enc_of_fits a hfits, rfl, hout.trans htext, fun k j hk hj => ?_, fun i hi => ?_,
    commandFrame_succeed s _⟩
  · have hlt : 8 * k + j < (enc a s.input).length := by
      rw [htext, encodedLength]
      omega
    rw [s.readOut_succeed_of_lt hlt, enc_getD a s.input (by rwa [State.input_length]) hj, encBlock_getD a _ hj,
      messageBlock_length, State.input_length, blockSymbol_eq]
    rfl
  · exact s.readOut_succeed_of_le (hout ▸ hi)

end Sys2Proof.Machine

namespace Sys2Proof.Machine

/-! ## The true content of a text -/

/-- `c` is the true symbol count of `t` (R60): `IsTrueCount`, said of a list. -/
structure TrueCount (t : List Byte) (c : Nat) : Prop where
  le : c ≤ t.length
  padded : ∀ i, c ≤ i → i < t.length → t[i]? = some pad
  maximal : 0 < c → t[c - 1]? ≠ some pad

/-- The loop of R60 finds the true count when all bytes that it has passed are pads. -/
theorem trueCount_stripPadFrom {t : List Byte} {c : Nat} (hle : c ≤ t.length)
    (hpassed : ∀ i, c ≤ i → i < t.length → t[i]? = some pad) : TrueCount t (stripPadFrom t c) := by
  induction c with
  | zero => exact ⟨hle, hpassed, fun h => absurd h (Nat.lt_irrefl 0)⟩
  | succ c ih =>
    rw [stripPadFrom_succ]
    split
    · next hpad =>
      refine ih (by omega) fun i hi hlt => ?_
      rcases hi.eq_or_lt with rfl | hi
      · exact hpad
      · exact hpassed i hi hlt
    · next hpad => exact ⟨hle, hpassed, fun _ => hpad⟩

theorem trueCount_stripPad (t : List Byte) : TrueCount t (stripPad t) :=
  trueCount_stripPadFrom (Nat.le_refl _) fun _ hi hlt => absurd hlt (Nat.not_lt.2 hi)

/-- The byte before a larger count would be one that the smaller count calls a pad. -/
theorem TrueCount.le_of_trueCount {t : List Byte} {c d : Nat} (hc : TrueCount t c) (hd : TrueCount t d) : d ≤ c := by
  by_contra hlt
  have hle := hd.le
  exact hd.maximal (by omega) (hc.padded (d - 1) (by omega) (by omega))

theorem TrueCount.stripPad_eq {t : List Byte} {c : Nat} (h : TrueCount t c) : stripPad t = c :=
  Nat.le_antisymm (h.le_of_trueCount (trueCount_stripPad t)) ((trueCount_stripPad t).le_of_trueCount h)

/-- R60: trailing pads do not change the true count. -/
theorem stripPad_append_pads (t : List Byte) (n : Nat) : stripPad (t ++ List.replicate n pad) = stripPad t := by
  obtain ⟨hle, hpadded, hmaximal⟩ := trueCount_stripPad t
  refine TrueCount.stripPad_eq ⟨?_, fun i hi hlt => ?_, fun hpos => ?_⟩
  · rw [List.length_append]
    omega
  · rw [List.length_append, List.length_replicate] at hlt
    by_cases hit : i < t.length
    · rw [List.getElem?_append_left hit, hpadded i hi hit]
    · rw [List.getElem?_append_right (Nat.not_lt.1 hit), List.getElem?_replicate_of_lt (by omega)]
  · rw [List.getElem?_append_left (by omega)]
    exact hmaximal hpos

/-- A text of symbols alone is all content. -/
theorem stripPad_symbols (a : Alphabet) (v : List Sym) : stripPad (v.map (alpha a)) = v.length := by
  refine TrueCount.stripPad_eq ⟨by simp, fun i hi hlt => ?_, fun _ h => ?_⟩
  · rw [List.length_map] at hlt
    omega
  · rw [List.getElem?_map, Option.map_eq_some_iff] at h
    obtain ⟨w, -, hw⟩ := h
    exact alpha_ne_pad a w hw

theorem eq_content_append_pads (t : List Byte) :
    t = t.take (stripPad t) ++ List.replicate (t.length - stripPad t) pad := by
  obtain ⟨hle, hpadded, -⟩ := trueCount_stripPad t
  have hdrop : t.drop (stripPad t) = List.replicate (t.length - stripPad t) pad := by
    refine List.eq_replicate_iff.2 ⟨List.length_drop, fun x hx => ?_⟩
    obtain ⟨i, hi, rfl⟩ := List.mem_iff_getElem.1 hx
    rw [List.length_drop] at hi
    rw [List.getElem_drop]
    exact (List.getElem?_eq_some_iff.1 (hpadded (stripPad t + i) (by omega) (by omega))).2
  rw [← hdrop, List.take_append_drop]

/-! ## The symbol lookups -/

theorem symVals_cons (a : Alphabet) (c : Byte) (cs : List Byte) :
    symVals a (c :: cs) = (symVal a c).bind fun v => (symVals a cs).map (v :: ·) := by
  rw [symVals]
  cases symVal a c <;> cases symVals a cs <;> rfl

/-- R62: the lookups all give a value exactly on the text of those values. -/
theorem symVals_eq_some_iff {a : Alphabet} {t : List Byte} {v : List Sym} :
    symVals a t = some v ↔ v.map (alpha a) = t := by
  induction t generalizing v with
  | nil =>
    rw [symVals, Option.some.injEq, List.map_eq_nil_iff]
    exact eq_comm
  | cons c cs ih =>
    simp only [symVals_cons, Option.bind_eq_some_iff, Option.map_eq_some_iff, symVal_eq_some_iff, ih, List.map_eq_cons_iff]
    constructor
    · rintro ⟨w, hw, ws, hws, rfl⟩
      exact ⟨w, ws, rfl, hw, hws⟩
    · rintro ⟨w, ws, rfl, hw, hws⟩
      exact ⟨w, hw, ws, hws, rfl⟩

theorem symVals_eq_none_iff {a : Alphabet} {t : List Byte} : symVals a t = none ↔ ∃ x ∈ t, symVal a x = none := by
  induction t with
  | nil => simp [symVals]
  | cons c cs ih =>
    rw [symVals_cons]
    cases h : symVal a c with
    | none => simp [h]
    | some v => simp [h, ih]

/-! ## What `Dec` answers -/

/-- R15: the remainders without an entry are those that R61 rejects. -/
theorem decBytes_eq_none_iff {q : Nat} (h : q < 8) : decBytes q = none ↔ q ∈ [1, 3, 6] := by
  revert q; decide

theorem dec_eq_error_iff {a : Alphabet} {t : List Byte} {k : ErrKind} :
    dec a t = .error k ↔
      k = .invalidEncoding ∧ (decBytes (stripPad t % 8) = none ∨ symVals a (t.take (stripPad t)) = none) := by
  unfold dec
  split
  · next h => simp [h, eq_comm]
  · next h => cases hv : symVals a (t.take (stripPad t)) <;> simp [h, eq_comm]

/-- Settles O41: the two checks, by the tables and the lookups. -/
theorem decodeFailsExactlyWhen : Obligations.DecodeFailsExactlyWhen := by
  intro a t
  refine ⟨?_, fun k h => (dec_eq_error_iff.1 h).1⟩
  rw [dec_eq_error_iff, decBytes_eq_none_iff (Nat.mod_lt _ (by decide)), symVals_eq_none_iff]
  exact and_iff_right rfl

/-- R60, R64: `Dec` reads the true content alone. -/
theorem dec_append_pads (a : Alphabet) (t : List Byte) (n : Nat) : dec a (t ++ List.replicate n pad) = dec a t := by
  rw [dec, dec, stripPad_append_pads, List.take_append_of_le_length (trueCount_stripPad t).le]

/-- Settles O40: the loop finds the true count, which appended pads do not change. -/
theorem trailingPadsAreStripped : Obligations.TrailingPadsAreStripped :=
  ⟨fun t => ⟨(trueCount_stripPad t).le, (trueCount_stripPad t).padded, (trueCount_stripPad t).maximal⟩,
    fun a t n => ⟨stripPad_append_pads t n, dec_append_pads a t n⟩⟩

/-- R64: the text of symbols, with a legal remainder, decodes to the bytes of their groups. -/
theorem dec_symbols (a : Alphabet) {v : List Sym} (h : decBytes (v.length % 8) ≠ none) :
    dec a (v.map (alpha a)) = .ok (decGroups v) := by
  have hlen : (v.map (alpha a)).length = v.length := List.length_map _
  rw [dec, stripPad_symbols, if_neg h, ← hlen, List.take_length, symVals_eq_some_iff.2 rfl]

/-- An accepted text is symbols, as many as a legal remainder allows, and then pads. -/
theorem symbols_of_dec_ok {a : Alphabet} {t out : List Byte} (h : dec a t = .ok out) :
    ∃ v, decBytes (v.length % 8) ≠ none ∧ v.length = stripPad t ∧ v.map (alpha a) = t.take (stripPad t) ∧
      decGroups v = out := by
  obtain ⟨v, hq, hv, rfl⟩ := dec_ok h
  have hlen : v.length = stripPad t := by
    rw [symVals_length hv, List.length_take, Nat.min_eq_left (trueCount_stripPad t).le]
  exact ⟨v, hlen ▸ hq, hlen, symVals_eq_some_iff.1 hv, rfl⟩

/-! ## How many bytes -/

/-- R15, R63: a legal remainder has the whole bytes in its symbols, and they are its entry in `DECBYTES`. -/
theorem groupBytes_of_legal {m : Nat} (h8 : m < 8) (hm : decBytes m ≠ none) :
    decBytes m = some (groupBytes m) ∧ groupBytes m = 5 * m / 8 := by
  revert m; decide

theorem decGroups_length_of_legal {v : List Sym} (h : decBytes (v.length % 8) ≠ none) :
    (decGroups v).length = 5 * v.length / 8 := by
  obtain ⟨-, hpart⟩ := groupBytes_of_legal (Nat.mod_lt _ (by decide)) h
  rw [decGroups_length, hpart]
  omega

/-- Settles O43: the bytes of the groups, counted. -/
theorem decodeOutputLength : Obligations.DecodeOutputLength := by
  intro a t out h
  obtain ⟨v, hq, hlen, -, rfl⟩ := symbols_of_dec_ok h
  obtain ⟨hentry, -⟩ := groupBytes_of_legal (Nat.mod_lt _ (by decide)) hq
  have hbytes := decGroups_length_of_legal hq
  rw [← hlen]
  refine ⟨⟨_, hentry, decGroups_length v⟩, hbytes, by omega, hlen ▸ (trueCount_stripPad t).le⟩

/-! ## The number of a group -/

/-- R63: `V` as a sum, each symbol at its place. -/
theorem groupWord_toNat (v : List Sym) :
    (groupWord v).toNat =
      (v.getD 0 0#5).toNat * 2 ^ 35 + (v.getD 1 0#5).toNat * 2 ^ 30 + (v.getD 2 0#5).toNat * 2 ^ 25 +
      (v.getD 3 0#5).toNat * 2 ^ 20 + (v.getD 4 0#5).toNat * 2 ^ 15 + (v.getD 5 0#5).toNat * 2 ^ 10 +
      (v.getD 6 0#5).toNat * 2 ^ 5 + (v.getD 7 0#5).toNat := by
  simp only [groupWord, Laws.append_toNat]
  omega

/-- R63: symbol `j` is its field of `V`. -/
theorem groupWord_field (v : List Sym) {j : Nat} (hj : j < 8) :
    (groupWord v).extractLsb' (35 - 5 * j) 5 = v.getD j 0#5 := by
  apply BitVec.eq_of_toNat_eq
  have h0 := (v.getD 0 0#5).isLt
  have h1 := (v.getD 1 0#5).isLt
  have h2 := (v.getD 2 0#5).isLt
  have h3 := (v.getD 3 0#5).isLt
  have h4 := (v.getD 4 0#5).isLt
  have h5 := (v.getD 5 0#5).isLt
  have h6 := (v.getD 6 0#5).isLt
  have h7 := (v.getD 7 0#5).isLt
  rw [Laws.field_toNat, groupWord_toNat]
  interval_cases j <;> omega

/-- R50: byte `i` is its field of `V`. -/
theorem blockWord_field (blk : List Byte) {i : Nat} (hi : i < 5) :
    (blockWord blk).extractLsb' (32 - 8 * i) 8 = blk.getD i 0#8 := by
  apply BitVec.eq_of_toNat_eq
  have h0 := (blk.getD 0 0#8).isLt
  have h1 := (blk.getD 1 0#8).isLt
  have h2 := (blk.getD 2 0#8).isLt
  have h3 := (blk.getD 3 0#8).isLt
  have h4 := (blk.getD 4 0#8).isLt
  rw [Laws.field_toNat, blockWord_toNat]
  interval_cases i <;> omega

/-- R63: the sizes a group of an accepted text can have. -/
abbrev legalSizes : List Nat := [2, 4, 5, 7, 8]

theorem legalSizes_cases {m : Nat} (h : m ∈ legalSizes) : m = 2 ∨ m = 4 ∨ m = 5 ∨ m = 7 ∨ m = 8 := by
  simpa using h

/-- R63: `V` is the number of the symbols before the last, and the last in the five bits below them. -/
theorem groupWord_split {v : List Sym} (hm : v.length ∈ legalSizes) :
    (groupWord v).toNat = 2 ^ (40 - 5 * v.length) *
      (2 ^ 5 * ((groupWord v.dropLast).toNat / 2 ^ (45 - 5 * v.length)) + (v.getD (v.length - 1) 0#5).toNat) := by
  have hbefore : ∀ j, j < v.length - 1 → v.dropLast.getD j 0#5 = v.getD j 0#5 := fun j hj => by
    rw [List.getD_eq_getElem?_getD, List.getD_eq_getElem?_getD, List.getElem?_dropLast, if_pos hj]
  have hlast : ∀ j, v.length - 1 ≤ j → v.dropLast.getD j 0#5 = 0#5 := fun j hj =>
    List.getD_eq_default _ _ (List.length_dropLast.trans_le hj)
  have hbeyond : ∀ j, v.length ≤ j → v.getD j 0#5 = 0#5 := fun j hj => List.getD_eq_default _ _ hj
  rw [groupWord_toNat, groupWord_toNat]
  generalize v.length = m at *
  rcases legalSizes_cases hm with rfl | rfl | rfl | rfl | rfl <;>
  · simp (disch := omega) only [hbefore, hlast, hbeyond, Nat.reduceSub, BitVec.toNat_zero]
    omega

/-! ## A group and its block

The `m` symbols of a legal group carry `5m` bits, of which its bytes take all but the low `5m mod 8` of the last symbol. -/

/-- The bits of the last symbol below the last byte are zero (R67). The sizes of a legal group and the remainders of a legal
count alike: after whole groups of eight there are no such bits. -/
def DroppedZero (v : List Sym) : Prop := (v.getD (v.length - 1) 0#5).toNat % 2 ^ (5 * v.length % 8) = 0

/-- R15, R63: a group has as many bytes as fit in its symbols, and R13 gives its symbols back from them. -/
theorem groupBytes_of_legalSize {m : Nat} (h : m ∈ legalSizes) :
    groupBytes m = 5 * m / 8 ∧ symCount (5 * m / 8) = m := by
  revert m; decide

theorem decGroup_length_of_legalSize {v : List Sym} (hm : v.length ∈ legalSizes) :
    (decGroup v).length = 5 * v.length / 8 := (decGroup_length v).trans (groupBytes_of_legalSize hm).1

/-- R63: the bytes of a group are the bits of `V` above the dropped ones. -/
theorem decGroup_congr {v w : List Sym} (hm : v.length ∈ legalSizes) (hlen : w.length = v.length)
    (h : (groupWord w).toNat / 2 ^ (40 - 8 * (5 * v.length / 8)) = (groupWord v).toNat / 2 ^ (40 - 8 * (5 * v.length / 8))) :
    decGroup w = decGroup v := by
  rw [decGroup, decGroup, hlen, (groupBytes_of_legalSize hm).1]
  refine List.map_congr_left fun i hi => BitVec.eq_of_toNat_eq ?_
  have hi := List.mem_range.1 hi
  obtain ⟨k, hk⟩ : ∃ k, 32 - 8 * i = 40 - 8 * (5 * v.length / 8) + k := Nat.exists_eq_add_of_le (by omega)
  rw [Laws.field_toNat, Laws.field_toNat, hk, Nat.pow_add, ← Nat.div_div_eq_div_mul, h, Nat.div_div_eq_div_mul]

/-- D18: groups that differ in the dropped bits alone have the same bits above them. -/
theorem groupWord_high_congr {v w : List Sym} (hm : v.length ∈ legalSizes) (hlen : w.length = v.length)
    (hinit : w.dropLast = v.dropLast)
    (hlast : (w.getD (v.length - 1) 0#5).toNat / 2 ^ (5 * v.length % 8) =
      (v.getD (v.length - 1) 0#5).toNat / 2 ^ (5 * v.length % 8)) :
    (groupWord w).toNat / 2 ^ (40 - 8 * (5 * v.length / 8)) = (groupWord v).toNat / 2 ^ (40 - 8 * (5 * v.length / 8)) := by
  have hv := groupWord_split hm
  have hw := groupWord_split (v := w) (hlen ▸ hm)
  rw [hlen, hinit] at hw
  generalize v.length = m at *
  rcases legalSizes_cases hm with rfl | rfl | rfl | rfl | rfl <;>
  · simp only [Nat.reduceMul, Nat.reduceMod, Nat.reducePow] at hlast
    omega

/-- The dropped bits are the low bits of `V`. -/
theorem droppedZero_iff_dvd {v : List Sym} (hm : v.length ∈ legalSizes) :
    DroppedZero v ↔ 2 ^ (40 - 8 * (5 * v.length / 8)) ∣ (groupWord v).toNat := by
  have hv := groupWord_split hm
  unfold DroppedZero
  generalize v.length = m at *
  rcases legalSizes_cases hm with rfl | rfl | rfl | rfl | rfl <;>
  · simp only [Nat.reduceMul, Nat.reduceMod, Nat.reducePow]
    omega

/-- Settles O42: the bytes are fields of `V` above the dropped bits. -/
theorem decodeGroupBytes : Obligations.DecodeGroupBytes := by
  intro v hm
  have hlen := decGroup_length_of_legalSize hm
  refine ⟨hlen, groupWord_toNat v, fun i hi => ?_, fun w hw hinit hlast => ?_⟩
  · rw [decGroup_getD v (hlen ▸ hi), Laws.field_toNat]
  · exact decGroup_congr hm hw (groupWord_high_congr hm hw hinit hlast)

/-- R50: missing bytes leave the low bits of `V` zero. -/
theorem dvd_blockWord (blk : List Byte) : 2 ^ (40 - 8 * blk.length) ∣ (blockWord blk).toNat := by
  have hbyte : ∀ i, i < 5 → 2 ^ (40 - 8 * blk.length) ∣ (blk.getD i 0#8).toNat * 2 ^ (32 - 8 * i) := fun i hi => by
    by_cases h : i < blk.length
    · exact Dvd.dvd.mul_left (Nat.pow_dvd_pow 2 (by omega)) _
    · rw [List.getD_eq_default _ _ (Nat.not_lt.1 h)]
      exact ⟨0, Nat.zero_mul _⟩
  rw [blockWord_toNat, ← Nat.mul_one (blk.getD 4 0#8).toNat]
  exact ((((hbyte 0 (by decide)).add (hbyte 1 (by decide))).add (hbyte 2 (by decide))).add (hbyte 3 (by decide))).add
    (hbyte 4 (by decide))

/-- R13: the symbols beyond `SYMCOUNT[r]` carry no bit of the input. -/
theorem encSym_eq_zero {blk : List Byte} {j : Nat} (h5 : blk.length ≤ 5) (hj : j < 8) (h : symCount blk.length ≤ j) :
    encSym blk j = 0#5 := by
  have hbits : ∀ r, r ≤ 5 → 8 * r ≤ 5 * symCount r := by decide
  have hr := hbits _ h5
  have hdvd : 2 ^ (35 - 5 * j) * 2 ^ 5 ∣ (blockWord blk).toNat := by
    rw [← Nat.pow_add]
    exact (Nat.pow_dvd_pow 2 (by omega)).trans (dvd_blockWord blk)
  apply BitVec.eq_of_toNat_eq
  rw [encSym_toNat]
  exact Nat.mod_eq_zero_of_dvd (Nat.dvd_div_of_mul_dvd hdvd)

/-- The symbols that the text of a block shows make up the whole of its `V`. -/
theorem groupWord_shownSyms {blk : List Byte} (h5 : blk.length ≤ 5) : groupWord (shownSyms blk) = blockWord blk := by
  have hsym : ∀ j, j < 8 → ((shownSyms blk).getD j 0#5).toNat = (blockWord blk).toNat / 2 ^ (35 - 5 * j) % 2 ^ 5 := by
    intro j hj
    rw [← encSym_toNat]
    by_cases h : j < symCount blk.length
    · simp [shownSyms, h]
    · rw [encSym_eq_zero h5 hj (Nat.not_lt.1 h), List.getD_eq_default _ _ (by rw [shownSyms_length]; omega)]
  have hlt := (blockWord blk).isLt
  apply BitVec.eq_of_toNat_eq
  rw [groupWord_toNat]
  simp (disch := decide) only [hsym]
  omega

/-- R67: a group of a block's symbols decodes to the block. -/
theorem decGroup_shownSyms {blk : List Byte} (h1 : 1 ≤ blk.length) (h5 : blk.length ≤ 5) : decGroup (shownSyms blk) = blk := by
  have hbytes : groupBytes (symCount blk.length) = blk.length := by
    generalize blk.length = r at *; interval_cases r <;> rfl
  have hlen : (decGroup (shownSyms blk)).length = blk.length := by rw [decGroup_length, shownSyms_length, hbytes]
  refine List.ext_getElem hlen fun i hi hi' => ?_
  rw [← List.getD_eq_getElem _ 0#8, ← List.getD_eq_getElem _ 0#8, decGroup_getD _ hi, groupWord_shownSyms h5,
    blockWord_field blk (by omega)]

/-- With the dropped bits zero the block of a group's bytes has the group's `V`. -/
theorem blockWord_decGroup {v : List Sym} (hm : v.length ∈ legalSizes) (hzero : DroppedZero v) :
    blockWord (decGroup v) = groupWord v := by
  have hdvd := (droppedZero_iff_dvd hm).1 hzero
  have hlen := decGroup_length_of_legalSize hm
  have hbyte : ∀ i, i < 5 → ((decGroup v).getD i 0#8).toNat = (groupWord v).toNat / 2 ^ (32 - 8 * i) % 2 ^ 8 := by
    intro i hi
    by_cases h : i < (decGroup v).length
    · rw [decGroup_getD v h, Laws.field_toNat]
    · rw [List.getD_eq_default _ _ (Nat.not_lt.1 h)]
      have hdvd : 2 ^ (32 - 8 * i) * 2 ^ 8 ∣ (groupWord v).toNat := by
        rw [← Nat.pow_add]
        exact (Nat.pow_dvd_pow 2 (by omega)).trans hdvd
      exact (Nat.mod_eq_zero_of_dvd (Nat.dvd_div_of_mul_dvd hdvd)).symm
  have hlt := (groupWord v).isLt
  apply BitVec.eq_of_toNat_eq
  rw [blockWord_toNat]
  simp (disch := decide) only [hbyte]
  omega

/-- R67: the block of a group's bytes shows the group again exactly when the dropped bits are zero. -/
theorem shownSyms_decGroup_iff {v : List Sym} (hm : v.length ∈ legalSizes) :
    shownSyms (decGroup v) = v ↔ DroppedZero v := by
  have hlen := decGroup_length_of_legalSize hm
  have hcases := legalSizes_cases hm
  constructor
  · intro h
    have hword : groupWord v = blockWord (decGroup v) := by
      rw [← groupWord_shownSyms (by omega), h]
    rw [droppedZero_iff_dvd hm, hword, ← hlen]
    exact dvd_blockWord _
  · intro hzero
    have hcount : (shownSyms (decGroup v)).length = v.length := by
      rw [shownSyms_length, hlen, (groupBytes_of_legalSize hm).2]
    refine List.ext_getElem hcount fun j hj hj' => ?_
    simp only [shownSyms, List.getElem_map, List.getElem_range, encSym]
    rw [blockWord_decGroup hm hzero, groupWord_field v (by omega), List.getD_eq_getElem _ _ hj']

/-! ## The symbols of a text -/

/-- The symbols of the text of a message (R52), before its pads. -/
def textSyms : List Byte → List Sym
  | b0 :: b1 :: b2 :: b3 :: b4 :: rest => shownSyms [b0, b1, b2, b3, b4] ++ textSyms rest
  | blk => shownSyms blk

theorem textSyms_block_append {blk : List Byte} (h : blk.length = 5) (rest : List Byte) :
    textSyms (blk ++ rest) = shownSyms blk ++ textSyms rest := by
  match blk, h with
  | [_, _, _, _, _], _ => rfl

theorem textSyms_partial {b : List Byte} (h4 : b.length ≤ 4) : textSyms b = shownSyms b := by
  match b, h4 with
  | [], _ | [_], _ | [_, _], _ | [_, _, _], _ | [_, _, _, _], _ => rfl

theorem decGroups_group_append {g : List Sym} (h : g.length = 8) (rest : List Sym) :
    decGroups (g ++ rest) = decGroup g ++ decGroups rest := by
  match g, h with
  | [_, _, _, _, _, _, _, _], _ => rfl

/-- R53: the text is these symbols and then the pads of its final partial block. `enc_eq_append` counts the symbols; this names
them. -/
theorem enc_eq_textSyms (a : Alphabet) (b : List Byte) :
    enc a b = (textSyms b).map (alpha a) ++ List.replicate (padCount (b.length % 5)) pad := by
  induction b using blocks_induction with
  | nothing => rfl
  | part b h1 h4 =>
    rw [enc_partial a b h1 h4, textSyms_partial h4, encBlock_eq_append, Nat.mod_eq_of_lt (by omega), padCount_eq h1 h4]
  | full b0 b1 b2 b3 b4 rest ih =>
    have hblock : encBlock a [b0, b1, b2, b3, b4] = (shownSyms [b0, b1, b2, b3, b4]).map (alpha a) :=
      (encBlock_eq_append a _).trans (List.append_nil _)
    have hmod : (b0 :: b1 :: b2 :: b3 :: b4 :: rest).length % 5 = rest.length % 5 := Nat.add_mod_right _ 5
    rw [enc_full, hblock, ih, hmod, textSyms, List.map_append, List.append_assoc]

/-- R60: the true count of symbols and pads is the number of symbols. -/
theorem stripPad_symbols_append_pads (a : Alphabet) (v : List Sym) (n : Nat) :
    stripPad (v.map (alpha a) ++ List.replicate n pad) = v.length := by
  rw [stripPad_append_pads, stripPad_symbols]

/-- R53: the number of symbols in the text of a message. -/
theorem textSyms_length (b : List Byte) : (textSyms b).length = 8 * (b.length / 5) + symCount (b.length % 5) := by
  obtain ⟨vs, hlen, henc⟩ := enc_eq_append .std b
  rw [← hlen, ← stripPad_symbols_append_pads .std vs, ← henc, enc_eq_textSyms, stripPad_symbols_append_pads]

/-- R67: the groups of a message's symbols are the message. -/
theorem decGroups_textSyms (b : List Byte) : decGroups (textSyms b) = b := by
  induction b using blocks_induction with
  | nothing => rfl
  | part b h1 h4 =>
    have hcount : ∀ r, 1 ≤ r → r ≤ 4 → 1 ≤ symCount r ∧ symCount r ≤ 7 := by decide
    obtain ⟨hpos, hle⟩ := hcount _ h1 h4
    rw [textSyms_partial h4, decGroups_partial _ (by rwa [shownSyms_length]) (by rwa [shownSyms_length]),
      decGroup_shownSyms h1 (by omega)]
  | full b0 b1 b2 b3 b4 rest ih =>
    rw [textSyms, decGroups_group_append (shownSyms_length _), decGroup_shownSyms (by simp) (by simp), ih]
    rfl

/-- Settles O44: the text is a legal number of symbols and then pads, and the groups of those symbols are the message. -/
theorem decodeInvertsEncode : Obligations.DecodeInvertsEncode := by
  intro a b
  have hlegal : ∀ r, r < 5 → decBytes (symCount r % 8) ≠ none := by decide
  have hcount : decBytes ((textSyms b).length % 8) ≠ none := by
    rw [textSyms_length, Nat.mul_add_mod]
    exact hlegal _ (Nat.mod_lt _ (by decide))
  rw [enc_eq_textSyms, dec_append_pads, dec_symbols a hcount, decGroups_textSyms]

/-! ## Canonical text -/

/-- Whole groups have no dropped bits. -/
theorem droppedZero_of_whole {v : List Sym} (h : v.length % 8 = 0) : DroppedZero v := by
  have hbits : 5 * v.length % 8 = 0 := by omega
  rw [DroppedZero, hbits]
  exact Nat.mod_one _

/-- The dropped bits are those of the last group alone. -/
theorem droppedZero_group_append {g : List Sym} (h : g.length = 8) (rest : List Sym) :
    DroppedZero (g ++ rest) ↔ DroppedZero rest := by
  have hlen : (g ++ rest).length = 8 + rest.length := by rw [List.length_append, h]
  by_cases hrest : rest.length = 0
  · exact iff_of_true (droppedZero_of_whole (by omega)) (droppedZero_of_whole (by omega))
  · have hbits : 5 * (8 + rest.length) % 8 = 5 * rest.length % 8 := by omega
    have hlast : 8 + rest.length - 1 - 8 = rest.length - 1 := by omega
    rw [DroppedZero, DroppedZero, hlen, hbits, List.getD_append_right _ _ _ _ (by omega), h, hlast]

theorem legalSize_of_legal {m : Nat} (h1 : 1 ≤ m) (h7 : m ≤ 7) (h : decBytes (m % 8) ≠ none) : m ∈ legalSizes := by
  revert m; decide

/-- R67: the symbols of what `v` decodes to are `v` again exactly when its dropped bits are zero. -/
theorem textSyms_decGroups_iff {v : List Sym} (h : decBytes (v.length % 8) ≠ none) :
    textSyms (decGroups v) = v ↔ DroppedZero v := by
  induction v using groups_induction with
  | nothing => exact iff_of_true rfl rfl
  | part v h1 h7 =>
    have hm := legalSize_of_legal h1 h7 h
    have hlen := decGroup_length_of_legalSize hm
    rw [decGroups_partial v h1 h7, textSyms_partial (by omega), shownSyms_decGroup_iff hm]
  | full v0 v1 v2 v3 v4 v5 v6 v7 rest ih =>
    have hg : [v0, v1, v2, v3, v4, v5, v6, v7].length ∈ legalSizes := by simp
    have hgroup : shownSyms (decGroup [v0, v1, v2, v3, v4, v5, v6, v7]) = [v0, v1, v2, v3, v4, v5, v6, v7] :=
      (shownSyms_decGroup_iff hg).2 (droppedZero_of_whole (by simp))
    have hrest : decBytes (rest.length % 8) ≠ none := by
      rwa [← Nat.add_mod_right rest.length 8]
    rw [decGroups_full, textSyms_block_append (decGroup_length _), hgroup]
    calc [v0, v1, v2, v3, v4, v5, v6, v7] ++ textSyms (decGroups rest) = [v0, v1, v2, v3, v4, v5, v6, v7] ++ rest
      _ ↔ textSyms (decGroups rest) = rest := List.append_right_inj _
      _ ↔ DroppedZero rest := ih hrest
      _ ↔ DroppedZero ([v0, v1, v2, v3, v4, v5, v6, v7] ++ rest) := (droppedZero_group_append (by simp) rest).symm

/-- Two texts of symbols and pads are equal exactly when both parts are: `symVals` reads the symbols back. -/
theorem symbols_append_pads_eq_iff {a : Alphabet} {v w : List Sym} {m n : Nat} :
    v.map (alpha a) ++ List.replicate m pad = w.map (alpha a) ++ List.replicate n pad ↔ v = w ∧ m = n := by
  constructor
  · intro h
    have hlen : v.length = w.length := by
      rw [← stripPad_symbols_append_pads a v m, h, stripPad_symbols_append_pads]
    obtain ⟨hsyms, hpads⟩ := List.append_inj h (by simpa using hlen)
    refine ⟨Option.some.inj ?_, by simpa using congrArg List.length hpads⟩
    rw [← symVals_eq_some_iff.2 hsyms, symVals_eq_some_iff.2 rfl]
  · rintro ⟨rfl, rfl⟩
    rfl

/-- R67: what `Canonical` says of a text of symbols and pads. -/
theorem canonical_symbols_append_pads_iff {a : Alphabet} {v : List Sym} {n : Nat} :
    Canonical a (v.map (alpha a) ++ List.replicate n pad) ↔ DroppedZero v ∧ n = (8 - v.length % 8) % 8 := by
  have hcount := stripPad_symbols_append_pads a v n
  have hlen : (v.map (alpha a) ++ List.replicate n pad).length = v.length + n := by simp
  have hbits : 5 * (v.length % 8) % 8 = 5 * v.length % 8 := by omega
  have hlast : v.length % 8 ≠ 0 →
      symVal a ((v.map (alpha a) ++ List.replicate n pad).getD (v.length - 1) 0#8) = some (v.getD (v.length - 1) 0#5) := by
    intro h
    have hlt : v.length - 1 < v.length := by omega
    rw [List.getD_append _ _ _ _ (by rwa [List.length_map]), List.getD_eq_getElem _ _ (by rwa [List.length_map]),
      List.getElem_map, symVal_alpha, List.getD_eq_getElem _ _ hlt]
  constructor
  · rintro ⟨hpads, hzero⟩
    rw [hcount, hlen] at hpads
    rw [hcount, hbits] at hzero
    refine ⟨?_, by omega⟩
    by_cases h : v.length % 8 = 0
    · exact droppedZero_of_whole h
    · exact hzero _ h (hlast h)
  · rintro ⟨hzero, rfl⟩
    refine ⟨by rw [hcount, hlen], fun w h hw => ?_⟩
    rw [hcount] at h hw ⊢
    obtain rfl := Option.some.inj ((hlast h).symm.trans hw)
    exact hbits ▸ hzero

/-- R14: the pads that fill the last group are those of the message's final block. -/
theorem padCount_decGroups {v : List Sym} (h : decBytes (v.length % 8) ≠ none) :
    padCount ((decGroups v).length % 5) = (8 - v.length % 8) % 8 := by
  have hpads : ∀ q, q < 8 → decBytes q ≠ none → padCount (5 * q / 8) = (8 - q) % 8 := by decide
  have hq : v.length % 8 < 8 := Nat.mod_lt _ (by decide)
  have hmod : (decGroups v).length % 5 = 5 * (v.length % 8) / 8 := by
    rw [decGroups_length, (groupBytes_of_legal hq h).2, Nat.mul_add_mod, Nat.mod_eq_of_lt (by omega)]
  rw [hmod, hpads _ hq h]

/-- Settles O45: both sides compare the symbols and the pads of the two texts. -/
theorem encodeInvertsDecodeOnCanonicalText : Obligations.EncodeInvertsDecodeOnCanonicalText := by
  intro a t b h
  obtain ⟨v, hq, -, hv, rfl⟩ := symbols_of_dec_ok h
  rw [eq_content_append_pads t, ← hv, canonical_symbols_append_pads_iff, enc_eq_textSyms, symbols_append_pads_eq_iff,
    textSyms_decGroups_iff hq, padCount_decGroups hq, eq_comm (a := (8 - _) % 8)]

/-! ## The command -/

/-- R66: text that fits and that `Dec` accepts. -/
theorem exec_b32dec_of_ok {a : Alphabet} {s : State} {out : List Byte} (hfits : s.inLen.toNat ≤ s.cfg.bufMax)
    (h : dec a s.input = .ok out) : exec (.b32dec a) s = .next (s.succeed out) := by
  show execB32dec a s = _
  rw [execB32dec_eq, if_neg (Nat.not_lt.2 hfits), h]

theorem exec_b32dec_of_error {a : Alphabet} {s : State} {k : ErrKind} (hfits : s.inLen.toNat ≤ s.cfg.bufMax)
    (h : dec a s.input = .error k) : exec (.b32dec a) s = .next (s.fail k) := by
  show execB32dec a s = _
  rw [execB32dec_eq, if_neg (Nat.not_lt.2 hfits), h]

/-- R67: an encoder that ran with room for the text has written it. -/
theorem output_of_exec_b32enc {a : Alphabet} {s t : State} (hfits : encodedLength s.inLen.toNat ≤ s.cfg.bufMax)
    (h : exec (.b32enc a) s = .next t) : t.output = enc a s.input ∧ t.outLen.toNat ≤ t.cfg.bufMax := by
  obtain rfl := Host.Outcome.next.inj ((exec_b32enc_of_fits a hfits).symm.trans h)
  have htext : (enc a s.input).length ≤ s.cfg.bufMax := by rwa [enc_length, State.input_length]
  have hmax := s.cfg.bufMax_le
  exact ⟨s.output_succeed _ (by omega), (s.succeed_outLen_toNat htext).trans_le htext⟩

/-- Settles O46: the copied text is the encoding of the first input, which decodes to it. -/
theorem roundTripThroughTheBlock : Obligations.RoundTripThroughTheBlock := by
  intro a s t u hlen ht hcfg hinLen hcopy
  have hfits : encodedLength s.inLen.toNat ≤ s.cfg.bufMax := by
    rw [encodedLength]
    omega
  obtain ⟨hout, hle⟩ := output_of_exec_b32enc hfits ht
  have hinput : u.input = enc a s.input := by
    rw [← hout, State.input, State.output, hinLen]
    exact List.map_congr_left fun i hi => hcopy i (List.mem_range.1 hi)
  have hdec : dec a u.input = .ok s.input := hinput ▸ decodeInvertsEncode a s.input
  refine ⟨_, exec_b32dec_of_ok (by rwa [hinLen, hcfg]) hdec, rfl, ?_, fun i hi => ?_⟩
  · rw [State.succeed_outLen, State.input_length, BitVec.ofNat_toNat, BitVec.setWidth_eq]
  · rw [u.readOut_succeed_of_lt (by rwa [State.input_length]), State.input_getD s hi]

/-- R60: the count of the text in `IN` is that of the list. -/
theorem IsTrueCount.stripPad_input {s : State} {c : Nat} (h : IsTrueCount s c) : stripPad s.input = c := by
  have hle := h.le
  refine TrueCount.stripPad_eq ⟨by rwa [State.input_length], fun i hi hlt => ?_, fun hpos hlast => ?_⟩
  · rw [State.input_length] at hlt
    rw [State.input_getElem? s hlt, h.padded i hi hlt]
    rfl
  · rw [State.input_getElem? s (by omega)] at hlast
    exact h.maximal hpos (Option.some.inj hlast)

theorem State.input_take (s : State) {c : Nat} (h : c ≤ s.inLen.toNat) : s.input.take c = (List.range c).map s.readIn := by
  rw [State.input, ← List.map_take, List.take_range, Nat.min_eq_left h]

/-- R61, R62: when `Dec` rejects the text in `IN`. -/
theorem dec_input_eq_error_iff {a : Alphabet} {s : State} {c : Nat} (hc : IsTrueCount s c) :
    dec a s.input = .error .invalidEncoding ↔ (c % 8 ∈ [1, 3, 6] ∨ ∃ i, i < c ∧ symVal a (s.readIn i) = none) := by
  rw [(decodeFailsExactlyWhen a s.input).1, hc.stripPad_input, State.input_take s hc.le]
  simp only [List.mem_map, List.mem_range, exists_exists_and_eq_and]

/-- Settles O24: `Dec` rejects the text, and 0x81 is `0x80 | code(InvalidEncoding)`. -/
theorem decodeCommandRejectsBadText : Obligations.DecodeCommandRejectsBadText := by
  intro a s c hfits hc hbad
  rw [exec_b32dec_of_error hfits ((dec_input_eq_error_iff hc).2 hbad)]
  rfl

/-- Group `g` of the symbols: up to eight (R64). -/
def symbolGroup (v : List Sym) (g : Nat) : List Sym := (v.drop (8 * g)).take 8

theorem symbolGroup_getD (v : List Sym) (g : Nat) {j : Nat} (hj : j < 8) :
    (symbolGroup v g).getD j 0#5 = v.getD (8 * g + j) 0#5 := by
  simp [symbolGroup, List.getD_eq_getElem?_getD, hj]

/-- R64: bytes `5g` to `5g+4` of the result are those of group `g`. -/
theorem decGroups_getD (v : List Sym) {i : Nat} (hi : i < (decGroups v).length) :
    (decGroups v).getD i 0#8 = (groupWord (symbolGroup v (i / 5))).extractLsb' (32 - 8 * (i % 5)) 8 := by
  induction v using groups_induction generalizing i with
  | nothing => cases hi
  | part v h1 h7 =>
    rw [decGroups_partial v h1 h7] at hi ⊢
    have hpart : ∀ m, m < 8 → groupBytes m < 5 := by decide
    have hi5 : i < 5 := by
      rw [decGroup_length] at hi
      exact hi.trans (hpart _ (by omega))
    rw [decGroup_getD v hi, Nat.div_eq_of_lt hi5, Nat.mod_eq_of_lt hi5, symbolGroup, Nat.mul_zero, List.drop_zero,
      List.take_of_length_le (by omega)]
  | full v0 v1 v2 v3 v4 v5 v6 v7 rest ih =>
    have hg : (decGroup [v0, v1, v2, v3, v4, v5, v6, v7]).length = 5 := decGroup_length _
    rw [decGroups_full] at hi ⊢
    by_cases h : i < 5
    · rw [List.getD_append _ _ _ _ (hg ▸ h), decGroup_getD _ (hg ▸ h), Nat.div_eq_of_lt h, Nat.mod_eq_of_lt h]
      rfl
    · obtain ⟨k, rfl⟩ : ∃ k, i = k + 5 := ⟨i - 5, by omega⟩
      rw [List.length_append, hg] at hi
      rw [List.getD_append_right _ _ _ _ (by omega), hg, Nat.add_sub_cancel, ih (by omega), Nat.add_div_right _ (by decide),
        Nat.add_mod_right]
      rfl

/-- R62: the symbols of the content are the values of its bytes. -/
theorem symbolNumber_eq {a : Alphabet} {s : State} {c : Nat} {v : List Sym} (hc : c ≤ s.inLen.toNat)
    (hv : v.map (alpha a) = s.input.take c) (i : Nat) : symbolNumber a s c i = (v.getD i 0#5).toNat := by
  rw [State.input_take s hc] at hv
  have hlen : v.length = c := by simpa using congrArg List.length hv
  rw [symbolNumber]
  split
  · next h =>
    have hi : alpha a v[i] = s.readIn i := by
      rw [← List.getElem_map (alpha a) (h := by rwa [List.length_map, hlen]), List.getElem_of_eq hv, List.getElem_map,
        List.getElem_range]
    rw [← hi, symVal_alpha, List.getD_eq_getElem _ _ (by omega)]
    rfl
  · next h => rw [List.getD_eq_default _ _ (by omega)]; rfl

theorem groupNumber_eq {a : Alphabet} {s : State} {c : Nat} {v : List Sym} (hc : c ≤ s.inLen.toNat)
    (hv : v.map (alpha a) = s.input.take c) (g : Nat) : groupNumber a s c g = (groupWord (symbolGroup v g)).toNat := by
  rw [groupWord_toNat, groupNumber]
  simp (disch := decide) only [symbolGroup_getD, symbolNumber_eq hc hv, Nat.add_zero]

/-- Settles O23: `Dec` accepts the text, and its bytes are read off group by group. -/
theorem decodeCommandWritesTheBytes : Obligations.DecodeCommandWritesTheBytes := by
  intro a s c hfits hc hq hsyms
  have hcount := hc.stripPad_input
  cases hdec : dec a s.input with
  | error k =>
    obtain rfl := (decodeFailsExactlyWhen a s.input).2 k hdec
    rcases (dec_input_eq_error_iff hc).1 hdec with hbad | ⟨i, hi, hnone⟩
    · simp only [List.mem_cons, List.not_mem_nil, or_false] at hq hbad
      omega
    · exact absurd hnone (hsyms i hi)
  | ok out =>
    obtain ⟨v, hlegal, hlen, hv, rfl⟩ := symbols_of_dec_ok hdec
    rw [hcount] at hlen hv
    have hbytes : (decGroups v).length = 5 * c / 8 := by rw [decGroups_length_of_legal hlegal, hlen]
    have hle := hc.le
    have hout : (s.succeed (decGroups v)).outLen.toNat = (decGroups v).length := s.succeed_outLen_toNat (by omega)
    refine ⟨_, exec_b32dec_of_ok hfits hdec, rfl, hout.trans hbytes, fun i hi => ?_, fun i hi => ?_,
      commandFrame_succeed s _⟩
    · rw [s.readOut_succeed_of_lt (by omega), decGroups_getD v (by omega), groupNumber_eq hle hv, ← Laws.field_toNat,
        BitVec.ofNat_toNat, BitVec.setWidth_eq]
    · exact s.readOut_succeed_of_le (hout ▸ hi)

end Sys2Proof.Machine

namespace Sys2Proof.Machine

/-! ## The window of a digest -/

theorem truncOffset_toNat (d : List Byte) : (truncOffset d).toNat = (d.getD (d.length - 1) 0#8).toNat % 16 := by
  rw [truncOffset, Laws.field_toNat]; omega

theorem truncOffset_le (d : List Byte) : (truncOffset d).toNat ≤ 15 := Nat.le_of_lt_succ (truncOffset d).isLt

/-- R70: the high four bits of the last byte are ignored, and so is every other byte. -/
theorem truncOffset_congr {d e : List Byte} (hlen : e.length = d.length)
    (hlast : (e.getD (d.length - 1) 0#8).toNat % 16 = (d.getD (d.length - 1) 0#8).toNat % 16) :
    truncOffset e = truncOffset d := by
  apply BitVec.eq_of_toNat_eq
  rw [truncOffset_toNat, truncOffset_toNat, hlen, hlast]

/-- R70: the low nibble of a byte is its remainder by 16. -/
theorem lowNibble_toNat (c : Byte) : ((c &&& 0x0F#8).setWidth 4).toNat = c.toNat % 16 := by
  rw [BitVec.toNat_setWidth, BitVec.toNat_and]
  show (c.toNat &&& (2 ^ 4 - 1)) % 2 ^ 4 = c.toNat % 2 ^ 4
  rw [Nat.and_two_pow_sub_one_eq_mod, Nat.mod_mod]

/-- Settles O47: the offset and the masked byte are the last byte's remainder by 16. -/
theorem offsetIsTheLastNibble : Obligations.OffsetIsTheLastNibble := fun d _ =>
  ⟨BitVec.eq_of_toNat_eq ((truncOffset_toNat d).trans (lowNibble_toNat _).symm), truncOffset_le d,
    fun _ => truncOffset_congr⟩

/-- R71: `P` as a sum, each byte at its place and the top bit of the first cleared. -/
theorem truncSelect_toNat (d : List Byte) :
    (truncSelect d).toNat =
      (d.getD (truncOffset d).toNat 0#8).toNat % 128 * 2 ^ 24 + (d.getD ((truncOffset d).toNat + 1) 0#8).toNat * 2 ^ 16 +
      (d.getD ((truncOffset d).toNat + 2) 0#8).toNat * 2 ^ 8 + (d.getD ((truncOffset d).toNat + 3) 0#8).toNat := by
  simp only [truncSelect, Laws.append_toNat, Laws.field_toNat]
  omega

/-- Settles O48: the window starts at 15 at the most, and the last byte's index is at least 19. -/
theorem truncationWindow : Obligations.TruncationWindow := by
  intro d hd
  have hoffset := truncOffset_le d
  exact ⟨truncOffset_toNat d, truncSelect_toNat d, by omega, by omega⟩

/-- R71: the selection reads the offset and the four bytes of its window. -/
theorem truncSelect_congr {d e : List Byte} (hoffset : truncOffset e = truncOffset d)
    (hwindow : ∀ j, j < 4 → e.getD ((truncOffset d).toNat + j) 0#8 = d.getD ((truncOffset d).toNat + j) 0#8) :
    truncSelect e = truncSelect d := by
  have hfirst := hwindow 0 (by decide)
  rw [Nat.add_zero] at hfirst
  rw [truncSelect, truncSelect, hoffset, hfirst, hwindow 1 (by decide), hwindow 2 (by decide), hwindow 3 (by decide)]

/-- Settles O51: the last byte gives the offset, and the selection reads its window alone. -/
theorem onlyFiveDigestBytesMatter : Obligations.OnlyFiveDigestBytesMatter := by
  intro d e digits _ hlen hlast hwindow
  rw [← truncOffset_toNat] at hwindow
  have hselect : truncSelect e = truncSelect d :=
    truncSelect_congr (truncOffset_congr hlen (congrArg (·.toNat % 16) hlast)) hwindow
  rw [trunc, trunc, hselect]

/-! ## The decimal code -/

/-- Settles O49: `POW10[digits]` is `10^digits`, and the largest modulus is `10^9`. -/
theorem codeValueIsTheRemainder : Obligations.CodeValueIsTheRemainder := by
  intro p digits _ h9
  refine ⟨rfl, Nat.le_sub_one_of_lt (Nat.mod_lt _ (Nat.pow_pos (by decide))), ?_⟩
  calc 10 ^ digits ≤ 10 ^ 9 := Nat.pow_le_pow_right (by decide) h9
    _ < 2 ^ 31 := by decide

/-- R73: an ASCII digit is 0x30 above its value; the sum does not wrap. -/
theorem asciiDigit_toNat (k : Nat) : (BitVec.ofNat 8 (0x30 + k % 10)).toNat = 0x30 + k % 10 := by
  rw [BitVec.toNat_ofNat]
  omega

theorem truncFormat_getD_toNat (value : Nat) {digits i : Nat} (h : i < digits) :
    ((truncFormat value digits).getD i 0#8).toNat = 0x30 + value / 10 ^ (digits - 1 - i) % 10 := by
  rw [truncFormat_getD value h, asciiDigit_toNat, pow10]

theorem truncFormat_mem_bounds {value digits : Nat} {x : Byte} (h : x ∈ truncFormat value digits) :
    0x30 ≤ x.toNat ∧ x.toNat ≤ 0x39 := by
  obtain ⟨i, -, rfl⟩ := List.mem_map.1 h
  rw [asciiDigit_toNat]
  omega

/-- R73: the last digit is the units, those before it are the digits of the tens. -/
theorem truncFormat_succ (value digits : Nat) :
    truncFormat value (digits + 1) = truncFormat (value / 10) digits ++ [BitVec.ofNat 8 (0x30 + value % 10)] := by
  have htens : ∀ i ∈ List.range digits,
      BitVec.ofNat 8 (0x30 + value / pow10 (digits + 1 - 1 - i) % 10) =
        BitVec.ofNat 8 (0x30 + value / 10 / pow10 (digits - 1 - i) % 10) := by
    intro i hi
    have hweight : digits + 1 - 1 - i = digits - 1 - i + 1 := by
      have := List.mem_range.1 hi
      omega
    rw [hweight, pow10, pow10, Nat.pow_succ', Nat.div_div_eq_div_mul]
  rw [truncFormat, List.range_succ, List.map_append, List.map_congr_left htens, truncFormat]
  simp [pow10]

/-- R73: read back as a decimal numeral, the digits give the value. -/
theorem ofDigits_truncFormat {value digits : Nat} (h : value < 10 ^ digits) :
    Nat.ofDigits 10 ((truncFormat value digits).map fun x => x.toNat - 0x30).reverse = value := by
  induction digits generalizing value with
  | zero => exact (Nat.lt_one_iff.1 h).symm
  | succ digits ih =>
    have htens : value / 10 < 10 ^ digits := Nat.div_lt_of_lt_mul (Nat.pow_succ' ▸ h)
    rw [truncFormat_succ, List.map_append, List.reverse_append, List.map_singleton, List.reverse_singleton,
      List.singleton_append, Nat.ofDigits_cons, ih htens, asciiDigit_toNat, Nat.add_sub_cancel_left]
    exact Nat.mod_add_div value 10

/-- Settles O50: each byte is one digit, and together they are the numeral of the value. -/
theorem formattedDigitsHaveTheValue : Obligations.FormattedDigitsHaveTheValue := fun value digits _ _ hvalue =>
  ⟨truncFormat_length value digits, fun _ => truncFormat_mem_bounds, fun _ => truncFormat_getD_toNat value,
    ofDigits_truncFormat hvalue⟩

/-- R72 to R74: character `i` of the code. -/
theorem trunc_getD (d : List Byte) {digits i : Nat} (h : i < digits) :
    (trunc d digits).getD i 0#8 =
      BitVec.ofNat 8 (0x30 + (truncSelect d).toNat % 10 ^ digits / 10 ^ (digits - 1 - i) % 10) := by
  rw [trunc, truncFormat_getD _ h, truncMod, pow10, pow10]

/-! ## The command -/

/-- R17: the shortest digest has 20 bytes. -/
theorem twenty_le_of_dlen {dsel : DigestSel} {n : Nat} (h : dlen dsel = some n) : 20 ≤ n := by
  cases dsel with
  | sha1 | sha256 | sha512 => cases h; decide
  | reserved => cases h

/-- R71: the selection of the digest in `IN` is that of the list; its window lies in the digest. -/
theorem digestSelection_eq {s : State} {n : Nat} (hlen : s.inLen.toNat = n) (hn : 20 ≤ n) :
    digestSelection s n = (truncSelect s.input).toNat := by
  have hoffset : (truncOffset s.input).toNat = digestOffset s n := by
    rw [truncOffset_toNat, State.input_length, hlen, s.input_getD (by omega), digestOffset]
  have hwindow : digestOffset s n + 3 < s.inLen.toNat := by
    have := truncOffset_le s.input
    omega
  rw [truncSelect_toNat, hoffset, s.input_getD (by omega), s.input_getD (by omega), s.input_getD (by omega),
    s.input_getD hwindow, digestSelection]

/-- Settles O25: with every check passed the success writes the code of the digest in `IN`. -/
theorem truncateCommandWritesTheCode : Obligations.TruncateCommandWritesTheCode := by
  intro dsel n digits s hn h1 h9 hlen
  have hmax := s.cfg.bufMax_ge
  have hcode := trunc_length s.input digits
  have hout : (s.succeed (trunc s.input digits)).outLen.toNat = (trunc s.input digits).length :=
    s.succeed_outLen_toNat (by omega)
  refine ⟨_, exec_hotptrunc_succeeds hn h1 h9 hlen, rfl, hout.trans hcode, fun i hi => ?_, fun i hi => ?_,
    commandFrame_succeed s _⟩
  · rw [s.readOut_succeed_of_lt (by omega), trunc_getD _ hi, digestSelection_eq hlen (twenty_le_of_dlen hn)]
  · exact s.readOut_succeed_of_le (hout ▸ hi)

/-- R75, first check: the selector. -/
theorem exec_hotptrunc_reserved (digits : Nat) (s : State) :
    exec (.hotptrunc .reserved digits) s = .next (s.fail .unsupportedDigest) := rfl

/-- R75, second check: the digit count. -/
theorem exec_hotptrunc_of_bad_digits {dsel : DigestSel} {digits : Nat} (hdsel : dsel ≠ .reserved)
    (h : digits < 1 ∨ 9 < digits) (s : State) :
    exec (.hotptrunc dsel digits) s = .next (s.fail .invalidDigitCount) := by
  obtain ⟨n, hn⟩ := exists_dlen hdsel
  show execHotptrunc dsel digits s = _
  rw [execHotptrunc_eq, hn]
  exact congrArg Host.Outcome.next (if_pos h)

/-- R75, third check: the length of the digest. -/
theorem exec_hotptrunc_of_bad_length {dsel : DigestSel} {digits n : Nat} {s : State} (hn : dlen dsel = some n)
    (h1 : 1 ≤ digits) (h9 : digits ≤ 9) (hlen : s.inLen.toNat ≠ n) :
    exec (.hotptrunc dsel digits) s = .next (s.fail .lengthError) := by
  show execHotptrunc dsel digits s = _
  rw [execHotptrunc_eq, hn]
  dsimp only
  rw [if_neg (by omega), if_pos hlen]

/-- Settles O26: each check fails with its kind, whose code `fail` writes. -/
theorem truncateChecksInOrder : Obligations.TruncateChecksInOrder := fun _ digits s =>
  ⟨fun hdsel => hdsel ▸ exec_hotptrunc_reserved digits s, fun hdsel h => exec_hotptrunc_of_bad_digits hdsel h s,
    fun _ hn h1 h9 hlen => exec_hotptrunc_of_bad_length hn h1 h9 hlen⟩

end Sys2Proof.Machine

namespace Sys2Proof.Machine

/-! ## The verdict a command leaves -/

/-- R80: what `ERR` shows after a failure. -/
@[simp] theorem State.fail_err (s : State) (k : ErrKind) : (s.fail k).err = k.code := by
  rw [State.err, State.fail_status]
  cases k <;> decide

/-- R80: what `ERR` shows after a success. -/
@[simp] theorem State.succeed_err (s : State) (bytes : List Byte) : (s.succeed bytes).err = 0#4 := by
  rw [State.err, State.succeed_status]
  decide

@[simp] theorem ErrKind.code_inj {k l : ErrKind} : k.code = l.code ↔ k = l := by
  cases k <;> cases l <;> decide

/-- R83: the kind can be read off the state after a failure. -/
@[simp] theorem State.fail_inj (s : State) {k l : ErrKind} : s.fail k = s.fail l ↔ k = l := by
  refine ⟨fun h => ?_, congrArg s.fail⟩
  have herr := congrArg State.err h
  rwa [State.fail_err, State.fail_err, ErrKind.code_inj] at herr

@[simp] theorem State.succeed_ne_fail (s : State) (bytes : List Byte) (k : ErrKind) : s.succeed bytes ≠ s.fail k :=
  fun h => statusFailure_ne_statusSuccess k (congrArg State.status h).symm

/-- Settles O29: `HostCmd` writes `CMD` and then fails or succeeds, and a success has `STATUS` 0x80. -/
theorem failedCommandChangesOnlyCmdAndStatus : Obligations.FailedCommandChangesOnlyCmdAndStatus := by
  intro c s t h hstatus
  rcases hostCmd_ends c s with ⟨k, hk⟩ | ⟨bytes, hb⟩
  · exact ⟨k, Host.Outcome.next.inj (h.symm.trans hk)⟩
  · obtain rfl := Host.Outcome.next.inj (hb.symm.trans h)
    exact absurd rfl hstatus

/-! ## When each command ends in which way -/

/-- Everything `B32ENC` can do, and when (R55). -/
theorem exec_b32enc_cases (a : Alphabet) (s : State) :
    (s.cfg.bufMax < encodedLength s.inLen.toNat ∧ exec (.b32enc a) s = .next (s.fail .lengthError)) ∨
    (encodedLength s.inLen.toNat ≤ s.cfg.bufMax ∧ exec (.b32enc a) s = .next (s.succeed (enc a s.input))) := by
  by_cases h : s.cfg.bufMax < encodedLength s.inLen.toNat
  · exact .inl ⟨h, (execB32enc_eq a s).trans (congrArg Host.Outcome.next (if_pos h))⟩
  · exact .inr ⟨Nat.not_lt.1 h, exec_b32enc_of_fits a (Nat.not_lt.1 h)⟩

/-- Everything `B32DEC` can do, and when (R66). -/
theorem exec_b32dec_cases (a : Alphabet) (s : State) :
    (s.cfg.bufMax < s.inLen.toNat ∧ exec (.b32dec a) s = .next (s.fail .lengthError)) ∨
    (s.inLen.toNat ≤ s.cfg.bufMax ∧ dec a s.input = .error .invalidEncoding ∧
      exec (.b32dec a) s = .next (s.fail .invalidEncoding)) ∨
    (s.inLen.toNat ≤ s.cfg.bufMax ∧ ∃ bytes, dec a s.input = .ok bytes ∧
      exec (.b32dec a) s = .next (s.succeed bytes)) := by
  by_cases h : s.cfg.bufMax < s.inLen.toNat
  · exact .inl ⟨h, (execB32dec_eq a s).trans (congrArg Host.Outcome.next (if_pos h))⟩
  · have hfits := Nat.not_lt.1 h
    cases hdec : dec a s.input with
    | error k =>
      obtain rfl : k = .invalidEncoding := (dec_eq_error_iff.1 hdec).1
      exact .inr (.inl ⟨hfits, rfl, exec_b32dec_of_error hfits hdec⟩)
    | ok bytes => exact .inr (.inr ⟨hfits, bytes, rfl, exec_b32dec_of_ok hfits hdec⟩)

/-- Everything `HOTPTRUNC` can do, and when (R75, R76). -/
theorem exec_hotptrunc_cases (dsel : DigestSel) (digits : Nat) (s : State) :
    (dsel = .reserved ∧ exec (.hotptrunc dsel digits) s = .next (s.fail .unsupportedDigest)) ∨
    (dsel ≠ .reserved ∧ (digits < 1 ∨ 9 < digits) ∧
      exec (.hotptrunc dsel digits) s = .next (s.fail .invalidDigitCount)) ∨
    (∃ n, dlen dsel = some n ∧ (1 ≤ digits ∧ digits ≤ 9) ∧ s.inLen.toNat ≠ n ∧
      exec (.hotptrunc dsel digits) s = .next (s.fail .lengthError)) ∨
    (∃ n, dlen dsel = some n ∧ (1 ≤ digits ∧ digits ≤ 9) ∧ s.inLen.toNat = n ∧
      exec (.hotptrunc dsel digits) s = .next (s.succeed (trunc s.input digits))) := by
  by_cases hdsel : dsel = .reserved
  · exact .inl ⟨hdsel, hdsel ▸ exec_hotptrunc_reserved digits s⟩
  by_cases hdigits : digits < 1 ∨ 9 < digits
  · exact .inr (.inl ⟨hdsel, hdigits, exec_hotptrunc_of_bad_digits hdsel hdigits s⟩)
  obtain ⟨n, hn⟩ := exists_dlen hdsel
  have hlegal : 1 ≤ digits ∧ digits ≤ 9 := by omega
  by_cases hlen : s.inLen.toNat = n.toNat
  · exact .inr (.inr (.inr ⟨_, hn, hlegal, hlen, exec_hotptrunc_succeeds hn hlegal.1 hlegal.2 hlen⟩))
  · exact .inr (.inr (.inl ⟨_, hn, hlegal, hlen, exec_hotptrunc_of_bad_length hn hlegal.1 hlegal.2 hlen⟩))

/-- R82 (a). -/
theorem exec_b32enc_eq_lengthError_iff {a : Alphabet} {s : State} :
    exec (.b32enc a) s = .next (s.fail .lengthError) ↔ s.cfg.bufMax < encodedLength s.inLen.toNat := by
  rcases exec_b32enc_cases a s with ⟨hlen, h⟩ | ⟨hlen, h⟩
  · exact iff_of_true h hlen
  · simp [h, hlen]

/-- R82 (b). -/
theorem exec_b32dec_eq_lengthError_iff {a : Alphabet} {s : State} :
    exec (.b32dec a) s = .next (s.fail .lengthError) ↔ s.cfg.bufMax < s.inLen.toNat := by
  rcases exec_b32dec_cases a s with ⟨hlen, h⟩ | ⟨hlen, -, h⟩ | ⟨hlen, bytes, -, h⟩
  · exact iff_of_true h hlen
  · simp [h, hlen]
  · simp [h, hlen]

/-- R82 (c). -/
theorem exec_hotptrunc_eq_lengthError_iff {dsel : DigestSel} {digits n : Nat} {s : State} (hn : dlen dsel = some n)
    (h1 : 1 ≤ digits) (h9 : digits ≤ 9) :
    exec (.hotptrunc dsel digits) s = .next (s.fail .lengthError) ↔ s.inLen.toNat ≠ n := by
  refine ⟨fun h hlen => ?_, exec_hotptrunc_of_bad_length hn h1 h9⟩
  simp [exec_hotptrunc_succeeds hn h1 h9 hlen] at h

theorem le_encodedLength (n : Nat) : n ≤ encodedLength n := by
  rw [encodedLength]; omega

/-- Settles O27: each command's length check, which no other kind of end can be mistaken for. -/
theorem lengthErrorExactlyWhen : Obligations.LengthErrorExactlyWhen :=
  ⟨fun _ _ => exec_b32enc_eq_lengthError_iff.symm,
    fun _ s h => exec_b32enc_eq_lengthError_iff.2 (h.trans_le (le_encodedLength s.inLen.toNat)),
    fun _ _ => exec_b32dec_eq_lengthError_iff.symm,
    fun _ _ _ _ hn h1 h9 => (exec_hotptrunc_eq_lengthError_iff hn h1 h9).symm⟩

/-! ## The ways each command can end -/

theorem status_of_next {o : Host.Outcome State Fault Refusal} {t u : State} (h : o = .next u) (ht : o = .next t) :
    t.status = u.status := congrArg State.status (Host.Outcome.next.inj (ht.symm.trans h))

theorem exec_b32enc_status_iff {a : Alphabet} {v : Byte} :
    (∃ s t, exec (.b32enc a) s = .next t ∧ t.status = v) ↔ v ∈ [0x80#8, 0x85#8] := by
  simp only [List.mem_cons, List.not_mem_nil, or_false]
  constructor
  · rintro ⟨s, t, ht, rfl⟩
    rcases exec_b32enc_cases a s with ⟨-, h⟩ | ⟨-, h⟩
    · exact .inr (status_of_next h ht)
    · exact .inl (status_of_next h ht)
  · rintro (rfl | rfl)
    · exact ⟨State.reset, _, exec_b32enc_empty a rfl, rfl⟩
    · exact ⟨State.reset.setInLen 65535#16, _, exec_b32enc_eq_lengthError_iff.2 (by decide), rfl⟩

/-- A text of one symbol, which has no legal remainder (R61). -/
def oneSymbolText : State := (State.reset.writeIn 0 0x41#8).setInLen 1#16

theorem dec_oneSymbolText (a : Alphabet) : dec a oneSymbolText.input = .error .invalidEncoding := rfl

theorem exec_b32dec_status_iff {a : Alphabet} {v : Byte} :
    (∃ s t, exec (.b32dec a) s = .next t ∧ t.status = v) ↔ v ∈ [0x80#8, 0x81#8, 0x85#8] := by
  simp only [List.mem_cons, List.not_mem_nil, or_false]
  constructor
  · rintro ⟨s, t, ht, rfl⟩
    rcases exec_b32dec_cases a s with ⟨-, h⟩ | ⟨-, -, h⟩ | ⟨-, bytes, -, h⟩
    · exact .inr (.inr (status_of_next h ht))
    · exact .inr (.inl (status_of_next h ht))
    · exact .inl (status_of_next h ht)
  · rintro (rfl | rfl | rfl)
    · exact ⟨State.reset, _, exec_b32dec_empty a rfl, rfl⟩
    · exact ⟨oneSymbolText, _, exec_b32dec_of_error (by decide) (dec_oneSymbolText a), rfl⟩
    · exact ⟨State.reset.setInLen 65535#16, _, exec_b32dec_eq_lengthError_iff.2 (by decide), rfl⟩

theorem exec_hotptrunc_status_iff {v : Byte} :
    (∃ d n s t, exec (.hotptrunc d n) s = .next t ∧ t.status = v) ↔ v ∈ [0x80#8, 0x82#8, 0x83#8, 0x85#8] := by
  simp only [List.mem_cons, List.not_mem_nil, or_false]
  constructor
  · rintro ⟨d, n, s, t, ht, rfl⟩
    rcases exec_hotptrunc_cases d n s with ⟨-, h⟩ | ⟨-, -, h⟩ | ⟨_, -, -, -, h⟩ | ⟨_, -, -, -, h⟩
    · exact .inr (.inr (.inl (status_of_next h ht)))
    · exact .inr (.inl (status_of_next h ht))
    · exact .inr (.inr (.inr (status_of_next h ht)))
    · exact .inl (status_of_next h ht)
  · rintro (rfl | rfl | rfl | rfl)
    · exact ⟨.sha1, 6, State.reset.setInLen 20#16, _, exec_hotptrunc_succeeds rfl (by decide) (by decide) rfl, rfl⟩
    · exact ⟨.sha1, 0, State.reset, _, exec_hotptrunc_of_bad_digits (by decide) (by decide) _, rfl⟩
    · exact ⟨.reserved, 6, State.reset, _, exec_hotptrunc_reserved 6 _, rfl⟩
    · exact ⟨.sha1, 6, State.reset, _, exec_hotptrunc_of_bad_length rfl (by decide) (by decide) (by decide), rfl⟩

/-- Settles O31: the cases of each command, and a state for each. -/
theorem waysEachCommandCanEnd : Obligations.WaysEachCommandCanEnd := fun _ =>
  ⟨fun _ => exec_b32enc_status_iff, fun _ => exec_b32dec_status_iff, exec_hotptrunc_status_iff⟩

/-! ## The first error that applies -/

section
variable {c : Byte} {s t : State}

theorem hostCmd_err_of_fail {i : Instr} {k : ErrKind} (ht : hostCmd c s = .next t) (hd : decode c = .ok i)
    (h : exec i (s.setCmd c) = .next ((s.setCmd c).fail k)) : t.err = k.code := by
  obtain rfl := Host.Outcome.next.inj (((hostCmd_of_ok hd s).trans h).symm.trans ht)
  exact State.fail_err _ k

theorem hostCmd_err_of_succeed {i : Instr} {bytes : List Byte} (ht : hostCmd c s = .next t) (hd : decode c = .ok i)
    (h : exec i (s.setCmd c) = .next ((s.setCmd c).succeed bytes)) : t.err = 0#4 := by
  obtain rfl := Host.Outcome.next.inj (((hostCmd_of_ok hd s).trans h).symm.trans ht)
  exact State.succeed_err _ bytes

theorem decode_b32enc (hc : c = 0x00#8 ∨ c = 0x01#8) : decode c = .ok (.b32enc (alphabetOf (alphabetField c))) := by
  rcases hc with rfl | rfl <;> rfl

theorem decode_b32dec (hc : c = 0x40#8 ∨ c = 0x41#8) : decode c = .ok (.b32dec (alphabetOf (alphabetField c))) := by
  rcases hc with rfl | rfl <;> rfl

theorem decode_hotptrunc (hc : 0x80 ≤ c.toNat ∧ c.toNat ≤ 0xBF) :
    decode c = .ok (.hotptrunc (dselOf (dselField c)) (digitsField c).toNat) := by
  rcases decode_cases c with ⟨hr, -⟩ | ⟨hr, -⟩ | ⟨-, hd⟩ | ⟨hr, -⟩
  · omega
  · omega
  · exact hd
  · unfold reservedByte at hr; omega

theorem dselOf_ne_reserved (hc : 0x80 ≤ c.toNat ∧ c.toNat ≤ 0xAF) : dselOf (dselField c) ≠ .reserved := by
  rw [ne_eq, dselOf_eq_reserved_iff, dselField_toNat]
  omega

theorem dselField_eq {d : BitVec 2} (h : c.toNat / 16 % 4 = d.toNat) : dselField c = d :=
  BitVec.eq_of_toNat_eq ((dselField_toNat c).trans h)

/-- R17, R44: the digest length that a truncation byte asks for. -/
theorem dlen_dselOf (hc : 0x80 ≤ c.toNat ∧ c.toNat ≤ 0xAF) : dlen (dselOf (dselField c)) = some (wantedLength c) := by
  rw [wantedLength]
  split
  · rw [dselField_eq (d := 0#2) (show c.toNat / 16 % 4 = 0 by omega)]
    rfl
  · split
    · rw [dselField_eq (d := 1#2) (show c.toNat / 16 % 4 = 1 by omega)]
      rfl
    · rw [dselField_eq (d := 2#2) (show c.toNat / 16 % 4 = 2 by omega)]
      rfl

/-- R84, item 1: `IllegalCommand`. -/
theorem hostCmd_err_of_reservedByte (ht : hostCmd c s = .next t) (hc : reservedByte c) : t.err = 4#4 := by
  obtain ⟨e, he⟩ := (reservedBytesDoNotDecode c).2 hc
  obtain rfl := Host.Outcome.next.inj ((hostCmd_of_error he s).symm.trans ht)
  exact State.fail_err _ .illegalCommand

/-- R84, item 2: `UnsupportedDigest`. -/
theorem hostCmd_err_of_reservedSelector (ht : hostCmd c s = .next t) (hc : 0xB0 ≤ c.toNat ∧ c.toNat ≤ 0xBF) :
    t.err = 3#4 := by
  have hdsel : dselOf (dselField c) = .reserved := by
    rw [dselOf_eq_reserved_iff, dselField_toNat]
    omega
  have hd := decode_hotptrunc (c := c) (by omega)
  rw [hdsel] at hd
  exact hostCmd_err_of_fail ht hd (exec_hotptrunc_reserved _ _)

/-- R84, item 3: `InvalidDigitCount`. -/
theorem hostCmd_err_of_badDigits (ht : hostCmd c s = .next t) (hc : 0x80 ≤ c.toNat ∧ c.toNat ≤ 0xAF)
    (hdigits : ¬ (1 ≤ c.toNat % 16 ∧ c.toNat % 16 ≤ 9)) : t.err = 2#4 := by
  have hbad : (digitsField c).toNat < 1 ∨ 9 < (digitsField c).toNat := by
    rw [digitsField_toNat]
    omega
  exact hostCmd_err_of_fail ht (decode_hotptrunc (by omega)) (exec_hotptrunc_of_bad_digits (dselOf_ne_reserved hc) hbad _)

/-- R84, item 4: `LengthError` of a truncation with legal operands, which no later check follows. -/
theorem hostCmd_err_of_legalTruncation (ht : hostCmd c s = .next t) (hc : 0x80 ≤ c.toNat ∧ c.toNat ≤ 0xAF)
    (hdigits : 1 ≤ c.toNat % 16 ∧ c.toNat % 16 ≤ 9) :
    t.err = if s.inLen.toNat = wantedLength c then 0#4 else 5#4 := by
  have hd := decode_hotptrunc (c := c) (by omega)
  rw [← digitsField_toNat] at hdigits
  split
  · next hlen => exact hostCmd_err_of_succeed ht hd (exec_hotptrunc_succeeds (dlen_dselOf hc) hdigits.1 hdigits.2 hlen)
  · next hlen => exact hostCmd_err_of_fail ht hd (exec_hotptrunc_of_bad_length (dlen_dselOf hc) hdigits.1 hdigits.2 hlen)

/-- R84, item 4: `LengthError` of an encoding, which no later check follows. -/
theorem hostCmd_err_of_b32enc (ht : hostCmd c s = .next t) (hc : c = 0x00#8 ∨ c = 0x01#8) :
    t.err = if s.cfg.bufMax < encodedLength s.inLen.toNat then 5#4 else 0#4 := by
  have hd := decode_b32enc hc
  split
  · next hlen => exact hostCmd_err_of_fail ht hd (exec_b32enc_eq_lengthError_iff.2 hlen)
  · next hlen => exact hostCmd_err_of_succeed ht hd (exec_b32enc_of_fits _ (Nat.not_lt.1 hlen))

/-- R84, item 4: `LengthError` of a decoding. -/
theorem hostCmd_err_of_longText (ht : hostCmd c s = .next t) (hc : c = 0x40#8 ∨ c = 0x41#8)
    (hlen : s.cfg.bufMax < s.inLen.toNat) : t.err = 5#4 :=
  hostCmd_err_of_fail ht (decode_b32dec hc) (exec_b32dec_eq_lengthError_iff.2 hlen)

/-- R84, item 5: `InvalidEncoding`, when `Dec` gives no bytes. -/
theorem hostCmd_err_of_text (ht : hostCmd c s = .next t) (hc : c = 0x40#8 ∨ c = 0x41#8)
    (hfits : s.inLen.toNat ≤ s.cfg.bufMax) :
    (t.err = 0#4 ↔ ∃ b, dec (alphabetOf (alphabetField c)) s.input = .ok b) ∧ (t.err = 0#4 ∨ t.err = 1#4) := by
  have hd := decode_b32dec hc
  cases hdec : dec (alphabetOf (alphabetField c)) s.input with
  | ok b =>
    have herr := hostCmd_err_of_succeed ht hd (exec_b32dec_of_ok hfits hdec)
    exact ⟨iff_of_true herr ⟨b, rfl⟩, .inl herr⟩
  | error k =>
    obtain rfl : k = .invalidEncoding := (dec_eq_error_iff.1 hdec).1
    have herr : t.err = 1#4 := hostCmd_err_of_fail ht hd (exec_b32dec_of_error hfits hdec)
    exact ⟨iff_of_false (by rw [herr]; decide) nofun, .inr herr⟩

end

theorem hostCmd_next (c : Byte) (s : State) : ∃ t, hostCmd c s = .next t := by
  rcases hostCmd_ends c s with ⟨k, hk⟩ | ⟨bytes, hb⟩
  · exact ⟨_, hk⟩
  · exact ⟨_, hb⟩

/-- Settles O28: each check is made when those before it have passed; the examples are bytes of its ranges. -/
theorem firstApplicableErrorIsReported : Obligations.FirstApplicableErrorIsReported := by
  refine ⟨fun c s => ?_, fun s => ?_, fun s _ => ?_, fun s hlen => ?_⟩
  · obtain ⟨t, ht⟩ := hostCmd_next c s
    exact ⟨t, ht, hostCmd_err_of_reservedByte ht, hostCmd_err_of_reservedSelector ht, hostCmd_err_of_badDigits ht,
      hostCmd_err_of_legalTruncation ht, hostCmd_err_of_b32enc ht, hostCmd_err_of_longText ht, hostCmd_err_of_text ht⟩
  · obtain ⟨t, ht⟩ := hostCmd_next 0xB0#8 s
    exact ⟨t, ht, hostCmd_err_of_reservedSelector ht (by decide)⟩
  · obtain ⟨t, ht⟩ := hostCmd_next 0x80#8 s
    exact ⟨t, ht, hostCmd_err_of_badDigits ht (by decide) (by decide)⟩
  · obtain ⟨t, ht⟩ := hostCmd_next 0x86#8 s
    refine ⟨t, ht, (hostCmd_err_of_legalTruncation ht (by decide) (by decide)).trans (if_neg ?_)⟩
    rw [hlen]
    decide

end Sys2Proof.Machine

namespace Sys2Proof.Machine

/-! ## The state after reset -/

/-- Settles O11: the values `State.reset` lists, and the fields of `STATUS` 0x00. -/
theorem resetStateRegisters : Obligations.ResetStateRegisters := ⟨rfl, rfl, rfl, rfl, rfl, rfl, rfl⟩

/-- Settles O52: `State.reset` and the state that `Reset()` leaves agree in everything that `Inv` reads. -/
theorem resetStateIsGood : Obligations.ResetStateIsGood :=
  State.reset.resetBlock_inv.congr rfl rfl rfl rfl rfl rfl

section
variable (s : State)

@[simp] theorem State.resetBlock_done : s.resetBlock.done = 0#1 := by
  rw [State.done, State.resetBlock_status]
  decide

@[simp] theorem State.resetBlock_err : s.resetBlock.err = 0#4 := by
  rw [State.err, State.resetBlock_status]
  decide

/-- R90, log 3: after a reset every byte of `IN` is a value of the next draw. -/
@[simp] theorem State.readIn_resetBlock (i : Nat) :
    s.resetBlock.readIn i = Config.unwrittenByte (s.epoch + 1) .input i := rfl

/-- R90, log 3: after a reset every byte of `OUT` is a value of the next draw. -/
@[simp] theorem State.readOut_resetBlock (i : Nat) :
    s.resetBlock.readOut i = Config.unwrittenByte (s.epoch + 1) .output i := rfl

end

theorem step_reset {s : State} {rest : List HostOp} (h : s.pending = .reset :: rest) :
    step s = .next (s.issue rest).resetBlock := step_cons h

/-- Settles O12: the step answers `resetBlock` of the issued state, read field by field. -/
theorem resetOperationResetsTheBlock : Obligations.ResetOperationResetsTheBlock := by
  intro s rest hp
  exact ⟨_, step_reset hp, rfl, rfl, rfl, rfl, State.resetBlock_done _, State.resetBlock_err _,
    State.readIn_resetBlock (s.issue rest), State.readOut_resetBlock (s.issue rest), rfl, rfl, rfl⟩

/-! ## Commands on the empty input, and no operation at all -/

/-- R91, R33: a result of no bytes writes no byte of `OUT`. -/
theorem State.succeed_nil (s : State) : s.succeed [] = { s with outLen := 0#16, status := 0x80#8 } := rfl

/-- Settles O13: on the empty input both commands succeed with no bytes. -/
theorem emptyInputSucceeds : Obligations.EmptyInputSucceeds := by
  intro a s hlen
  rw [← State.succeed_nil]
  exact ⟨exec_b32enc_empty a hlen, exec_b32dec_empty a hlen⟩

/-- Settles O19: `issueNext` on the empty list. -/
theorem nothingPendingNothingHappens : Obligations.NothingPendingNothingHappens := fun _ => step_nil

/-! ## Every command ends with a verdict -/

/-- R80: the codes 6 to 15 are never written. -/
theorem ErrKind.code_toNat_le (k : ErrKind) : k.code.toNat ≤ 5 := by
  cases k <;> decide

/-- R23: a failure writes 0 to the reserved bits. -/
@[simp] theorem State.fail_statusReserved (s : State) (k : ErrKind) : (s.fail k).statusReserved = 0#3 := by
  rw [State.statusReserved, State.fail_status]
  cases k <;> decide

/-- R23: a success writes 0 to the reserved bits. -/
@[simp] theorem State.succeed_statusReserved (s : State) (bytes : List Byte) : (s.succeed bytes).statusReserved = 0#3 := by
  rw [State.statusReserved, State.succeed_status]
  decide

/-- Settles O21: `HostCmd` writes `CMD` and then fails or succeeds, and each of the two writes a whole `STATUS`. -/
theorem everyCommandEndsWithVerdict : Obligations.EveryCommandEndsWithVerdict := by
  intro c s
  rcases hostCmd_ends c s with ⟨k, hk⟩ | ⟨bytes, hb⟩
  · refine ⟨_, hk, State.fail_done _ k, State.fail_statusReserved _ k, ?_, rfl⟩
    rw [State.fail_err]
    exact k.code_toNat_le
  · refine ⟨_, hb, State.succeed_done _ bytes, State.succeed_statusReserved _ bytes, ?_, rfl⟩
    rw [State.succeed_err]
    decide

end Sys2Proof.Machine
